-- ==== Sys2Proof/Word.lean ====
section
/-! DEFINITION. The widths of this hardware's values (spec/00_scope.md R5, R6, R9: every value is an unsigned
integer of a stated width, bit 0 the least significant). -/

namespace Sys2Proof

/-- A register, working or table-entry value: `W` = 32 bits (R5, R112). -/
abbrev Word := BitVec 32

/-- An input byte or a table index: 8 bits (R5, R40). -/
abbrev Byte := BitVec 8

/-- A command word: `CMDW` = 16 bits (R6, R61). -/
abbrev CmdWord := BitVec 16

/-- A response status and a cause code: 3 bits (R66, R121). -/
abbrev Status := BitVec 3

end Sys2Proof
end

