-- ==== Sys2Proof/Syntax.lean ====
section
/-! DEFINITION. The five commands (spec/30_encoding.md R60, R63), one constructor per row of spec/opcode_table.json. -/

namespace Sys2Proof

/-- The block's instructions: its commands. The operand of `trd` and `upd` is the 8-bit `arg` field as it stands
(R62); the other three have none. -/
inductive Instr where
  /-- `TGEN`: generate the table (R85). -/
  | tgen
  /-- `TRD i`: read table entry `i` (R86). -/
  | trd (i : Byte)
  /-- `INIT`: open a call (R105). -/
  | init
  /-- `UPD b`: fold one input byte (R106). -/
  | upd (b : Byte)
  /-- `FIN`: finish the call and deliver the checksum (R107). -/
  | fin
  deriving DecidableEq, Repr

end Sys2Proof
end

