-- ==== Sys2Proof/Assembly.lean ====
section
/-! DEFINITION. The source statements of the spec's assembler syntax (spec/30_encoding.md R68, R69), before their
operands are checked. Reading and printing them is Machine/Assembler.lean. -/

namespace Sys2Proof

/-- One assembler statement. Operands are the integers written down, so that one outside 0 to 255 can be refused
("an assembly error, not a command", R68). -/
inductive AsmStmt where
  /-- `TGEN`. -/
  | tgen
  /-- `TRD i`. -/
  | trd (i : Nat)
  /-- `INIT`. -/
  | init
  /-- `UPD b`. -/
  | upd (b : Nat)
  /-- `FIN`. -/
  | fin
  /-- The pseudo-instruction `CRC32 b0, b1, ...` (R69). -/
  | crc32 (bytes : List Nat)
  /-- The pseudo-instruction `CRC32 "text"`, the characters between the quotes (R69). -/
  | crc32Text (text : List Char)
  deriving DecidableEq, Repr

end Sys2Proof
end

