-- ==== Sys2Proof/WellFormed.lean ====
section
/-! DEFINITION. What is well formed: a command word (spec/30_encoding.md R63, R64), a decoded command, and an
assembler statement (R68, R69). -/

namespace Sys2Proof

/-- One row of the opcode map: a word `cw` is the command of the row exactly when `cw and mask = bits` (R63). -/
structure OpcodeRow where
  /-- The row's mnemonic, as spec/opcode_table.json has it. -/
  mnemonic : String
  /-- The column `match`. -/
  bits : CmdWord
  /-- The column `mask`. -/
  mask : CmdWord
  deriving DecidableEq, Repr

/-- The opcode map (R63). -/
def opcodeRows : List OpcodeRow :=
  [⟨"TGEN", 0x0000, 0xFFFF⟩, ⟨"TRD", 0x0100, 0xFF00⟩, ⟨"INIT", 0x0200, 0xFFFF⟩,
   ⟨"UPD", 0x0300, 0xFF00⟩, ⟨"FIN", 0x0400, 0xFFFF⟩]

/-- The word is the row's command. -/
def OpcodeRow.covers (row : OpcodeRow) (cw : CmdWord) : Bool := cw &&& row.mask == row.bits

/-- A command word is well formed when it matches a row; every other word is illegal (R64). -/
def legalWord (cw : CmdWord) : Bool := opcodeRows.any (·.covers cw)

/-- Every decoded command is well formed: `arg` is 8 bits wide by its type and every value of it is legal for `TRD`
and `UPD` (R62, R64). -/
def Instr.wf : Instr → Bool
  | .tgen => true
  | .trd i => decide (i.toNat ≤ 255)
  | .init => true
  | .upd b => decide (b.toNat ≤ 255)
  | .fin => true

/-- An operand is an integer 0 to 255 (R68). -/
def operandOk (n : Nat) : Bool := decide (n ≤ 255)

/-- Only characters with codes 0x20 to 0x7E other than the double quote may appear in `CRC32 "text"` (R69). -/
def textCharOk (c : Char) : Bool := decide (0x20 ≤ c.toNat) && decide (c.toNat ≤ 0x7E) && c != '"'

/-- An assembler statement is well formed when its operands are (R68, R69). -/
def AsmStmt.wf : AsmStmt → Bool
  | .tgen => true
  | .trd i => operandOk i
  | .init => true
  | .upd b => operandOk b
  | .fin => true
  | .crc32 bytes => bytes.all operandOk
  | .crc32Text text => text.all textCharOk

end Sys2Proof
end

