-- ==== Sys2Proof/Decode.lean ====
section
/-! DEFINITION. Decoding of a command word, total on all 65536 words (spec/30_encoding.md R61 to R64), the encoder
beside it, and the word the host's opcode table numbers. A command word is one 16-bit value on a port and has no byte
order (spec/20_memory.md R43). -/

namespace Sys2Proof

/-- Why a word is illegal (R64); presenting either kind raises `IllegalCommand`. -/
inductive Reject where
  /-- `op` is 0x05 to 0xFF. -/
  | reservedOpcode
  /-- `op` is that of `TGEN`, `INIT` or `FIN` and `arg` is not 0x00. -/
  | nonZeroArg
  deriving DecidableEq, Repr

/-- Field `op = cw[15:8]` (R61). -/
def cmdOp (cw : CmdWord) : Byte := cw.extractLsb' 8 8

/-- Field `arg = cw[7:0]` (R61). -/
def cmdArg (cw : CmdWord) : Byte := cw.extractLsb' 0 8

/-- A command whose `arg` must be 0x00 (R63). -/
def decodeBare (i : Instr) (arg : Byte) : Except Reject Instr :=
  if arg = 0x00 then .ok i else .error .nonZeroArg

/-- The command of a word by the opcode map of R63, or why it is illegal (R64). -/
def decode (cw : CmdWord) : Except Reject Instr :=
  if cmdOp cw = 0x00 then decodeBare .tgen (cmdArg cw)
  else if cmdOp cw = 0x01 then .ok (.trd (cmdArg cw))
  else if cmdOp cw = 0x02 then decodeBare .init (cmdArg cw)
  else if cmdOp cw = 0x03 then .ok (.upd (cmdArg cw))
  else if cmdOp cw = 0x04 then decodeBare .fin (cmdArg cw)
  else .error .reservedOpcode

/-- The `op` column of R63. -/
def opcode : Instr → Byte
  | .tgen => 0x00
  | .trd _ => 0x01
  | .init => 0x02
  | .upd _ => 0x03
  | .fin => 0x04

/-- The `arg` column of R63. -/
def argument : Instr → Byte
  | .tgen => 0x00
  | .trd i => i
  | .init => 0x00
  | .upd b => b
  | .fin => 0x00

/-- `cw = op ++ arg` (R61). -/
def encode (i : Instr) : CmdWord := opcode i ++ argument i

/-- The command word whose bits spec/opcode_table.json numbers as `w`, `nbits` of them given and the rest zero: one
16-bit word, bit 0 the least significant (log entry 10). -/
def tableWord (nbits w : Nat) : CmdWord := BitVec.ofNat 16 (w % 2 ^ nbits)

/-- What the decoder reads from the word `w` of an opcode-table row of `nbits` bits. -/
def decodeTableWord (nbits w : Nat) : Option Instr :=
  match decode (tableWord nbits w) with
  | .ok i => some i
  | .error _ => none

/-- R63, row `TGEN`: 0000000000000000. -/
theorem decode_word_tgen : decode 0b0000000000000000 = .ok .tgen := by decide

/-- R63, row `TRD`: 00000001iiiiiiii, here with i = 10000001. -/
theorem decode_word_trd : decode 0b0000000110000001 = .ok (.trd 0b10000001) := by decide

/-- R63, row `INIT`: 0000001000000000. -/
theorem decode_word_init : decode 0b0000001000000000 = .ok .init := by decide

/-- R63, row `UPD`: 00000011bbbbbbbb, here with b = 01100001. -/
theorem decode_word_upd : decode 0b0000001101100001 = .ok (.upd 0b01100001) := by decide

/-- R63, row `FIN`: 0000010000000000. -/
theorem decode_word_fin : decode 0b0000010000000000 = .ok .fin := by decide

end Sys2Proof
end

