-- ==== Sys2Proof/Config.lean ====
section
/-! DEFINITION. The constants the spec hardwires (spec/00_scope.md R5: "identical in every instance of the block")
and the one free value of the model. `BUDGET` (R6) is an argument of the machine and stands in State. -/

namespace Sys2Proof

/-- `POLY`, "the reversed representation of the standard CRC-32 polynomial" (R5). -/
def Config.POLY : Word := 0xEDB88320

/-- `NENT`, the number of table entries (R5). -/
def Config.NENT : Nat := 256

/-- `NSTEP`, the bit steps per table entry, "exactly 8" (R5, R81). -/
def Config.NSTEP : Nat := 8

/-- `RINIT`, the register at the start of a call (R5). -/
def Config.RINIT : Word := 0xFFFFFFFF

/-- `XOROUT`, XORed into the register to form the result (R5). -/
def Config.XOROUT : Word := 0xFFFFFFFF

/-- `IDXMASK`, the mask that forms the table index (R5). -/
def Config.IDXMASK : Word := 0xFF

/-- The contents of `R` after the `n`-th time a call was closed: R22 and R33 leave them unspecified ("R holds no
value"), so nothing constrains this function. DESIGN CHOICE, log entry 6: safe, a claim holds whatever the value is. -/
opaque Config.freeWord : Nat → Word

end Sys2Proof
end

