-- ==== Sys2Proof/Machine/Operands.lean ====
section
/-! DEFINITION. The operand forms: the 8-bit argument widened (spec/30_encoding.md R62) and the two effective table
indices (spec/42_common_laws.md R114). -/

namespace Sys2Proof.Machine

/-- `zext_32(arg)` (R10, R62): the upper 24 bits are 0. -/
def zext32 (arg : Byte) : Word := arg.setWidth 32

/-- The effective index of `UPD`: `(R xor zext_32(b)) and 0x000000FF`, an 8-bit value (R100, R114 a). -/
def updIndex (r : Word) (b : Byte) : Byte := ((r ^^^ zext32 b) &&& Config.IDXMASK).setWidth 8

/-- The effective index of `TRD`: the argument as it stands (R62, R114 b). -/
def trdIndex (arg : Byte) : Byte := arg

end Sys2Proof.Machine
end

