-- ==== Sys2Proof/Machine/State.lean ====
section
/-! DEFINITION. The state as plain data: the seven items of spec/10_state.md R20 and the model's own fields (the
open parameter, the two sides of the command port, the counter of free values). -/

namespace Sys2Proof.Machine

/-- The table store's contents: (index, entry) pairs, one 32-bit entry per index since "the unit of addressing is the
entry, not the byte" (R40). Canonical form: `Memory.wf` in Machine/Ops.lean. DESIGN CHOICE, log entry 7: safe. -/
abbrev Memory := List (Nat × Word)

/-- The block's four faults (R121). Each is taken as a next state by `State.raise`. -/
inductive Cause where
  /-- The word is not one of the five commands. -/
  | illegalCommand
  /-- The table was needed while `TV = 0`. -/
  | tableNotReady
  /-- The register was needed while `CO = 0`. -/
  | noOpenCall
  /-- The ceiling on completed commands is exhausted. -/
  | budgetExceeded
  deriving DecidableEq, Repr

/-- One response `(status, data)` (R66). -/
structure Response where
  /-- 0 is `OK`, otherwise the recorded cause code. -/
  status : Status
  /-- `T[i]` for `TRD`, the checksum for `FIN`, zero otherwise. -/
  data : Word
  deriving DecidableEq, Repr

/-- What the host can do to the block (R8, R140, R146). It has no move that overlaps two commands or resets the block
inside one (U14, U18): DEDUCED, log entry 15: unsafe if a real host does so. -/
inductive HostMove where
  /-- Assert the reset input. -/
  | reset
  /-- Present one command word. -/
  | command (cw : CmdWord)
  deriving DecidableEq, Repr

/-- The machine: one instance with one engine (R53; DESIGN CHOICE, log entry 13: safe). The one-bit items are Booleans and
`cause` is the 3-bit register (DESIGN CHOICE, log entry 17: safe). -/
structure State where
  /-- `R`: the running CRC accumulator of the open call (R21). -/
  r : Word
  /-- `CO`: a call is open and `R` holds a value (R22). -/
  co : Bool
  /-- `T[0..255]`: the table store (R23). -/
  t : Memory
  /-- `TV`: every entry of `T` holds its value (R24). -/
  tv : Bool
  /-- `FAULT`: a fault has been recorded since the last reset (R26). -/
  fault : Bool
  /-- `CAUSE`: the cause code of the recorded fault (R26). -/
  cause : Status
  /-- `OPS`: commands completed since the last reset, unbounded (R27). -/
  ops : Nat
  /-- The open parameter `BUDGET` (R6, R132), which no step changes. DESIGN CHOICE, log entry 3. -/
  budget : Option Nat
  /-- What the host will still do, next first (R8: the host's choices are inputs). DESIGN CHOICE, log entry 1: safe. -/
  inputs : List HostMove
  /-- The responses the host has received, oldest first (R66; the block keeps none, R30). DESIGN CHOICE, log entry 2: safe. -/
  responses : List Response
  /-- The model's own counter of free values drawn (log entry 6): safe. -/
  freeCount : Nat
  deriving DecidableEq, Repr

/-- Why the machine stops. It never does: every fault of the spec (R121) is a next state with `FAULT = 1`, and R104 and
R83 give no other failure, so there is no constructor for anyone to raise. DEDUCED, log entry 16: safe. -/
inductive Fault where
  deriving DecidableEq, Repr

/-- Why a command has no meaning. -/
inductive Refusal where
  /-- Raised by an arm of exec whose instruction has no meaning yet; no arm does (safe: the machine would stop). -/
  | notModelled (mnemonic : String)
  deriving DecidableEq, Repr

/-- The machine right after reset (R32) under the parameter `BUDGET = b`: `CO`, `TV`, `FAULT`, `CAUSE`, `OPS` are zero.
R32 leaves `R` and `T` unspecified; R33 allows "some bit pattern there (for example all zeros)". DESIGN CHOICE, log
entries 4 (`r`) and 5 (`t`): unsafe, a proof could lean on the zeros. No host move is pending and no response received. -/
def State.resetWith (b : Option Nat) : State :=
  { r := 0, co := false, t := [], tv := false, fault := false, cause := 0, ops := 0,
    budget := b, inputs := [], responses := [], freeCount := 0 }

/-- The machine right after reset with no ceiling. DESIGN CHOICE, log entry 3: `BUDGET = none` is "the block with no
environmental failure" (D15); unsafe for a claim about this one state in an environment that has a ceiling. -/
def State.reset : State := State.resetWith none

end Sys2Proof.Machine
end

