-- ==== Sys2Proof/Machine/Flags.lean ====
section
/-! DEFINITION. The conditions the command frame tests (spec/60_exceptions.md R123) and the cause codes (R121). No
command's result sets a flag: "no flag records anything about a result" (spec/42_common_laws.md R112). -/

namespace Sys2Proof.Machine

/-- The 3-bit cause code (R121); codes 5, 6 and 7 are not used. -/
def Cause.code : Cause → Status
  | .illegalCommand => 1
  | .tableNotReady => 2
  | .noOpenCall => 3
  | .budgetExceeded => 4

/-- The status of a command that completed, `OK` (R66, R121). -/
def okStatus : Status := 0

/-- `BUDGET != none and OPS >= BUDGET` (R123 step 2, R132). -/
def budgetExhausted (s : State) : Bool :=
  match s.budget with
  | none => false
  | some n => decide (n ≤ s.ops)

end Sys2Proof.Machine
end

