-- ==== Sys2Proof/Machine/Ops.lean ====
section
/-! DEFINITION. The shared operations: the table store (spec/20_memory.md), responding, taking a fault and leaving the
faulted state (spec/60_exceptions.md R124, R126), the command frame (R123), reset (spec/70_reset_and_hazards.md R140)
and taking the host's next move (spec/30_encoding.md R67). -/

namespace Sys2Proof.Machine

/-! ### The table store -/

/-- What an entry that is not listed reads as. The spec gives the store no contents before `TGEN` (R24, R33), and every
read is guarded by `TV`. DESIGN CHOICE, log entry 5: unsafe, though no guarded read depends on it. -/
def Memory.unlisted : Word := 0

/-- Read entry `i` (R40, R45): always one whole entry, no side effect. -/
def Memory.read : Memory → Byte → Word
  | [], _ => Memory.unlisted
  | (a, v) :: m, i => if a = i.toNat then v else Memory.read m i

/-- The entry to be listed for the value `v` at index `a`: none for the value an unlisted entry reads as. -/
def Memory.cell (a : Nat) (v : Word) : Memory := if v = Memory.unlisted then [] else [(a, v)]

/-- Put the value `v` at index `a`, keeping the indices rising. -/
def Memory.put (a : Nat) (v : Word) : Memory → Memory
  | [] => Memory.cell a v
  | (b, w) :: m =>
    if a < b then Memory.cell a v ++ (b, w) :: m
    else if a = b then Memory.cell a v ++ m
    else (b, w) :: Memory.put a v m

/-- Write entry `i` (R11 `T[i] <- v`; only `TGEN` does). -/
def Memory.write (m : Memory) (i : Byte) (v : Word) : Memory := Memory.put i.toNat v m

/-- Write `f i` into every entry `i < n`, the highest first; the order is immaterial (R82). DESIGN CHOICE, log entry 11:
safe, the order is not observable. Irreducible so that the elaborator never unrolls 256 writes to compare two states;
the kernel evaluates it. -/
@[irreducible] def Memory.fill (f : Byte → Word) : Nat → Memory → Memory
  | 0, m => m
  | n + 1, m => Memory.fill f n (m.write (BitVec.ofNat 8 n) (f (BitVec.ofNat 8 n)))

/-- The canonical form from index `lo` on. -/
def Memory.wfFrom (lo : Nat) : Memory → Bool
  | [] => true
  | (a, v) :: m => decide (lo ≤ a) && decide (a < Config.NENT) && v != Memory.unlisted && Memory.wfFrom (a + 1) m

/-- The canonical form: indices strictly rising and below 256 (R46), no entry equal to what an unlisted one reads as. -/
def Memory.wf (m : Memory) : Bool := Memory.wfFrom 0 m

/-! ### Responses, fault entry, the register's lifetime -/

/-- `respond(status, data)` (R11, R66). -/
def State.respond (status : Status) (data : Word) (s : State) : State :=
  { s with responses := s.responses ++ [⟨status, data⟩] }

/-- `CO <- 0`: the call is closed and "R holds no value" (R22, R107, R124), so its contents become a free value
(log entry 6). -/
def State.closeCall (s : State) : State :=
  { s with co := false, r := Config.freeWord s.freeCount, freeCount := s.freeCount + 1 }

/-- `CO <- 1` with the register created at `RINIT` (R21, R105). -/
def State.openCall (s : State) : State :=
  { s with co := true, r := Config.RINIT }

/-- Fault entry, `raise X` (R124): `FAULT <- 1`, `CAUSE <- k`, `CO <- 0`, `respond(k, 0x00000000)`, and nothing else;
`T`, `TV`, `OPS` keep their values. There is no return from it (R126); the way out is `State.applyReset`. -/
def State.raise (c : Cause) (s : State) : State :=
  ({ s.closeCall with fault := true, cause := c.code }).respond c.code 0

/-! ### The command frame -/

/-- Steps 1 and 2 of the command frame (R123), then `k`: a recorded fault answers every word with its cause and changes
nothing (R125); an exhausted budget raises `BudgetExceeded` (R132). -/
def commandFrame (k : State → State) (s : State) : State :=
  if s.fault then s.respond s.cause 0
  else if budgetExhausted s then s.raise .budgetExceeded
  else k s

/-- Step 4 of R123: the table is needed. -/
def needTable (k : State → State) (s : State) : State :=
  if s.tv then k s else s.raise .tableNotReady

/-- Step 5 of R123: an open call is needed. -/
def needCall (k : State → State) (s : State) : State :=
  if s.co then k s else s.raise .noOpenCall

/-- Steps 7 and 8 of R123: `OPS <- OPS + 1`, `respond(0, d)`. -/
def State.complete (d : Word) (s : State) : State :=
  ({ s with ops := s.ops + 1 }).respond okStatus d

/-- An illegal word, in the command frame (R123 steps 1 to 3). -/
def rejectWord (s : State) : State := commandFrame (State.raise .illegalCommand) s

/-! ### The host's moves -/

/-- The reset step (R140): the state of R32, whatever the state was. The parameter, the host's remaining moves and the
responses it has received are no state of the block and stay; reset yields no response. Log entries 4, 5, 9. -/
def State.applyReset (s : State) : State :=
  { State.resetWith s.budget with
    inputs := s.inputs, responses := s.responses, freeCount := s.freeCount }

/-- The host's next move and the state once it is taken, if there is one (R8, R67). -/
def nextInput (s : State) : Option (HostMove × State) :=
  match s.inputs with
  | [] => none
  | m :: rest => some (m, { s with inputs := rest })

end Sys2Proof.Machine
end

