-- ==== Sys2Proof/Machine/TableGen.lean ====
section
/-! DEFINITION. The table generator: its pure functions and the commands `TGEN` and `TRD` (spec/40_table_gen.md). -/

namespace Sys2Proof.Machine

/-- One bit step (R80): shift right by one, XOR with `POLY` when the bit shifted out was 1. -/
def bitstep (c : Word) : Word :=
  if c.getLsbD 0 then (c >>> 1) ^^^ Config.POLY else c >>> 1

/-- `n` bit steps. -/
def bitsteps : Nat → Word → Word
  | 0, c => c
  | n + 1, c => bitsteps n (bitstep c)

/-- The value of table entry `i`: exactly 8 bit steps from `zext_32(i)` (R81). -/
def tableEntry (i : Byte) : Word := bitsteps Config.NSTEP (zext32 i)

/-- The whole table, entry `i` at position `i` (R82). -/
def table : List Word := (List.range Config.NENT).map fun i => tableEntry (BitVec.ofNat 8 i)

/-- The body of `TGEN` (R85): every entry written, `TV <- 1`. -/
def genTable (s : State) : State :=
  { s with t := s.t.fill tableEntry Config.NENT, tv := true }

/-- `TGEN` (R85): no precondition but the frame's; response `(0, 0)`. -/
def execTgen (s : State) : Host.Outcome State Fault Refusal :=
  .next (commandFrame (fun s => (genTable s).complete 0) s)

/-- `TRD i` (R86): needs the table; response `(0, T[i])`. -/
def execTrd (i : Byte) (s : State) : Host.Outcome State Fault Refusal :=
  .next (commandFrame (needTable fun s => s.complete (s.t.read (trdIndex i))) s)

end Sys2Proof.Machine
end

