-- ==== Sys2Proof/Machine/Engine.lean ====
section
/-! DEFINITION. The checksum engine: its pure functions and the commands `INIT`, `UPD` and `FIN` (spec/41_engine.md). -/

namespace Sys2Proof.Machine

/-- The register update over a table `T` (R100, R106): `(r >> 8) xor T[(r xor b) and 0xFF]`, both reads of the old `r`. -/
def updateWith (T : Byte → Word) (r : Word) (b : Byte) : Word := (r >>> 8) ^^^ T (updIndex r b)

/-- `update(r, b)` (R100). -/
def update (r : Word) (b : Byte) : Word := updateWith tableEntry r b

/-- `crc32(bytes)` (R101). -/
def crc32 (bytes : List Byte) : Word := bytes.foldl update Config.RINIT ^^^ Config.XOROUT

/-- The body of `UPD b` (R106), reading the table store. -/
def foldByte (b : Byte) (s : State) : State :=
  { s with r := updateWith s.t.read s.r b }

/-- The checksum that `FIN` delivers: `R xor 0xFFFFFFFF` (R107). -/
def checksum (s : State) : Word := s.r ^^^ Config.XOROUT

/-- `INIT` (R105): no precondition but the frame's; restarts an open call; response `(0, 0)`. -/
def execInit (s : State) : Host.Outcome State Fault Refusal :=
  .next (commandFrame (fun s => s.openCall.complete 0) s)

/-- `UPD b` (R106): needs the table, then an open call; response `(0, 0)`. -/
def execUpd (b : Byte) (s : State) : Host.Outcome State Fault Refusal :=
  .next (commandFrame (needTable (needCall fun s => (foldByte b s).complete 0)) s)

/-- `FIN` (R107): needs an open call, not the table; response `(0, R xor 0xFFFFFFFF)`; closes the call. -/
def execFin (s : State) : Host.Outcome State Fault Refusal :=
  .next (commandFrame (needCall fun s => s.closeCall.complete (checksum s)) s)

end Sys2Proof.Machine
end

