-- ==== Sys2Proof/Machine/Dispatch.lean ====
section
/-! DEFINITION. One arm per command (spec/30_encoding.md R63). -/

namespace Sys2Proof.Machine

def exec (i : Instr) (s : State) : Host.Outcome State Fault Refusal :=
  match i with
  | .tgen => Sys2Proof.Machine.execTgen s
  | .trd idx => Sys2Proof.Machine.execTrd idx s
  | .init => Sys2Proof.Machine.execInit s
  | .upd b => Sys2Proof.Machine.execUpd b s
  | .fin => Sys2Proof.Machine.execFin s

end Sys2Proof.Machine
end

