-- ==== Sys2Proof/Machine/Step.lean ====
section
/-! DEFINITION. One step of the block: one command or one reset (spec/00_scope.md R7, R8). -/

namespace Sys2Proof.Machine

/-- One step: the host's next move is taken; a reset is applied (R140); a word is decoded and executed, or rejected as
illegal, in the command frame (R123). With no move the block waits with its state unchanged (R67; log entry 1). The
frame's checks 1 and 2 stand inside `exec` and `rejectWord`; decoding is pure, so doing it first changes nothing
(DEDUCED, log entry 8: safe). A step has no duration (R147; DEDUCED, log entry 14: safe). -/
def step (s : State) : Host.Outcome State Fault Refusal :=
  match nextInput s with
  | none => .next s
  | some (.reset, s') => .next s'.applyReset
  | some (.command cw, s') =>
    match decode cw with
    | .ok i => exec i s'
    | .error _ => .next (rejectWord s')

/-- The state in which the host presents the opcode-table word `w` next (log entry 10). -/
def State.withFetchWord (s : State) (nbits w : Nat) : State :=
  { s with inputs := .command (tableWord nbits w) :: s.inputs }

end Sys2Proof.Machine
end

