-- ==== Sys2Proof/Machine/Assembler.lean ====
section
/-! DEFINITION. The assembler syntax, the pseudo-instruction `CRC32` and the disassembler (spec/30_encoding.md R68 to
R70). A source line is a list of characters. "No two different lines of legal text assemble to the same word except by
the choice of decimal or hexadecimal for the operand" (R70), so a number has one spelling in each radix and, the comment
aside, a command has one layout (DEDUCED, log entry 18, safe). Blanks before a comment, lines without a command and the
layout of `CRC32` are not fixed by any rule (DESIGN CHOICE, log entry 12, safe): no command of the block depends on
them. -/

namespace Sys2Proof.Machine

/-! ### From statements to command words -/

/-- The call that checksums the bytes: `INIT`, one `UPD` per byte in order, `FIN` (R69). -/
def callOf (bytes : List Byte) : List Instr := .init :: bytes.map .upd ++ [.fin]

/-- The commands a well-formed statement stands for; an operand out of range is an assembly error (R68, R69). -/
def expandStmt (st : AsmStmt) : Option (List Instr) :=
  if st.wf then
    match st with
    | .tgen => some [.tgen]
    | .trd i => some [.trd (BitVec.ofNat 8 i)]
    | .init => some [.init]
    | .upd b => some [.upd (BitVec.ofNat 8 b)]
    | .fin => some [.fin]
    | .crc32 bytes => some (callOf (bytes.map (BitVec.ofNat 8)))
    | .crc32Text text => some (callOf (text.map fun c => BitVec.ofNat 8 c.toNat))
  else none

/-! ### Printing numbers -/

/-- A hexadecimal digit, upper case as the spec prints it. -/
def hexDigit (n : Nat) : Char := if n < 10 then Char.ofNat (48 + n) else Char.ofNat (55 + n)

/-- The `k` low hexadecimal digits of `n`. -/
def hexDigits : Nat → Nat → List Char
  | 0, _ => []
  | k + 1, n => hexDigits k (n / 16) ++ [hexDigit (n % 16)]

/-- A number as `0x` and `k` digits. -/
def hex (k n : Nat) : List Char := '0' :: 'x' :: hexDigits k n

/-- A number in decimal, without leading zeros. -/
def decimal (n : Nat) : List Char := Nat.toDigits 10 n

/-! ### Reading a line -/

/-- A space or a tab. -/
def isBlank (c : Char) : Bool := c == ' ' || c == '\t'

/-- Without blanks at the end. -/
def trimEnd (cs : List Char) : List Char := (cs.reverse.dropWhile isBlank).reverse

/-- "Text from `;` to the end of the line is a comment" (R68), and so are the blanks before it; without a `;` the line
itself. -/
def stripComment (cs : List Char) : List Char :=
  if cs.contains ';' then trimEnd (cs.takeWhile (· != ';')) else cs

/-- The value of a digit in base `base`, at most 16. -/
def digit (base : Nat) (c : Char) : Option Nat :=
  let v := if '0' ≤ c ∧ c ≤ '9' then c.toNat - '0'.toNat
    else if 'A' ≤ c ∧ c ≤ 'F' then c.toNat - 'A'.toNat + 10
    else base
  if v < base then some v else none

/-- The digits' value in base `base`, after a prefix of value `acc`. -/
def digitsFrom (base acc : Nat) : List Char → Option Nat
  | [] => some acc
  | c :: cs => (digit base c).bind fun d => digitsFrom base (base * acc + d) cs

/-- The value of the characters read as a number, whatever its spelling. -/
def numberValue (cs : List Char) : Option Nat :=
  match cs with
  | '0' :: 'x' :: ds => digitsFrom 16 0 ds
  | ds => digitsFrom 10 0 ds

/-- An integer in decimal, or in hexadecimal with the prefix `0x` (R68), in the one spelling of its radix (R70): no
leading zeros in decimal; in hexadecimal the two upper-case digits that disassembly prints. -/
def number (cs : List Char) : Option Nat :=
  (numberValue cs).filter fun n => cs == decimal n || cs == hex 2 n

/-- One space and a number. -/
def operand (cs : List Char) : Option Nat :=
  match cs with
  | ' ' :: ds => number ds
  | _ => none

/-- The parts between commas. -/
def splitCommas : List Char → List (List Char)
  | [] => [[]]
  | c :: cs =>
    if c = ',' then [] :: splitCommas cs
    else match splitCommas cs with
      | [] => [[c]]
      | part :: parts => (c :: part) :: parts

/-- All the operands, or none if one cannot be read. -/
def operands : List (List Char) → Option (List Nat)
  | [] => some []
  | part :: parts => (operand part).bind fun n => (operands parts).map (n :: ·)

/-- The operand field of a statement without operands. -/
def bareOperand (st : AsmStmt) (rest : List Char) : Option AsmStmt :=
  if stripComment rest = [] then some st else none

/-- The operand field of `CRC32` (R69): nothing, a list of numbers, or a quoted text (in which `;` is a character). -/
def crcOperand (rest : List Char) : Option AsmStmt :=
  match rest with
  | ' ' :: '"' :: cs =>
    match cs.dropWhile (· != '"') with
    | '"' :: tail => bareOperand (.crc32Text (cs.takeWhile (· != '"'))) tail
    | _ => none
  | cs =>
    if stripComment cs = [] then some (.crc32 [])
    else (operands (splitCommas (stripComment cs))).map .crc32

/-- A character of a mnemonic: upper-case letter or decimal digit (R68). -/
def isMnemonicChar (c : Char) : Bool := ('A' ≤ c && c ≤ 'Z') || ('0' ≤ c && c ≤ '9')

/-- The statement of a mnemonic with its operand field. -/
def parseStmt (mnemonic rest : List Char) : Option AsmStmt :=
  if mnemonic = ['T', 'G', 'E', 'N'] then bareOperand .tgen rest
  else if mnemonic = ['T', 'R', 'D'] then (operand (stripComment rest)).map .trd
  else if mnemonic = ['I', 'N', 'I', 'T'] then bareOperand .init rest
  else if mnemonic = ['U', 'P', 'D'] then (operand (stripComment rest)).map .upd
  else if mnemonic = ['F', 'I', 'N'] then bareOperand .fin rest
  else if mnemonic = ['C', 'R', 'C', '3', '2'] then crcOperand rest
  else none

/-- The command words of one line (R68, R69); `none` is an assembly error; a line with no statement gives no word. -/
def assembleLine (line : List Char) : Option (List CmdWord) :=
  if (stripComment line).all isBlank then some []
  else ((parseStmt (line.takeWhile isMnemonicChar) (line.dropWhile isMnemonicChar)).bind expandStmt).map (·.map encode)

/-- The command words of a source text, one command per line (R68). -/
def assemble : List (List Char) → Option (List CmdWord)
  | [] => some []
  | line :: lines => (assembleLine line).bind fun ws => (assemble lines).map (ws ++ ·)

/-! ### Printing a word -/

/-- Disassembly (R70). -/
def disassemble (cw : CmdWord) : List Char :=
  match decode cw with
  | .ok .tgen => ['T', 'G', 'E', 'N']
  | .ok (.trd i) => ['T', 'R', 'D', ' '] ++ hex 2 i.toNat
  | .ok .init => ['I', 'N', 'I', 'T']
  | .ok (.upd b) => ['U', 'P', 'D', ' '] ++ hex 2 b.toNat
  | .ok .fin => ['F', 'I', 'N']
  | .error _ => ['I', 'L', 'L', 'E', 'G', 'A', 'L', ' '] ++ hex 4 cw.toNat

end Sys2Proof.Machine
end

