-- ==== Sys2Proof/Safety.lean ====
section
/-! DEFINITION. The terms claims are stated in: when a command may complete, the machine's invariant, the commands of a
whole call, the end of a run, and what the host can observe. -/

namespace Sys2Proof.Machine

/-! ### When a command may complete -/

/-- `n` more commands fit in the budget (R132). -/
def State.budgetFor (n : Nat) (s : State) : Prop := ∀ N, s.budget = some N → s.ops + n ≤ N

/-- `FAULT = 0` and budget left: the head of the table of R142. -/
def State.ready (s : State) : Prop := s.fault = false ∧ budgetExhausted s = false

/-- The host presents `cw` next and then goes on with `rest`. -/
def State.presents (s : State) (cw : CmdWord) (rest : List HostMove) : Prop :=
  s.inputs = .command cw :: rest

/-- The state once the host's move is taken, `rest` being the moves after it. -/
def State.taken (s : State) (rest : List HostMove) : State := { s with inputs := rest }

/-- The state `s` after a fault of cause `c` was taken (R124), up to the contents of `R`, which are then unspecified. -/
def State.faultedFrom (s : State) (c : Cause) (s' : State) : Prop :=
  ∃ x n, s' = { s with fault := true, cause := c.code, co := false, r := x, freeCount := n,
                       responses := s.responses ++ [⟨c.code, 0⟩] }

/-- The state `s` after a command that changed nothing else completed with the data `d` (R123 steps 7 and 8). -/
def State.completedWith (s : State) (d : Word) : State :=
  { s with ops := s.ops + 1, responses := s.responses ++ [⟨0, d⟩] }

/-- The common checks of R123 on the command `i`: in a faulted state it is answered with the recorded cause and changes
nothing (R125); with the budget exhausted it raises `BudgetExceeded` (R132). -/
def CommonChecks (i : Instr) : Prop :=
  (∀ s : State, s.fault = true →
    exec i s = .next { s with responses := s.responses ++ [⟨s.cause, 0⟩] }) ∧
  (∀ (s : State) (N : Nat), s.fault = false → s.budget = some N → N ≤ s.ops →
    ∃ s', exec i s = .next s' ∧ s.faultedFrom .budgetExceeded s')

/-- The command reads the table: step 4 of R123. -/
def needsTable : Instr → Bool
  | .tgen => false
  | .trd _ => true
  | .init => false
  | .upd _ => true
  | .fin => false

/-- The command reads the register: step 5 of R123. -/
def needsCall : Instr → Bool
  | .tgen => false
  | .trd _ => false
  | .init => false
  | .upd _ => true
  | .fin => true

/-- The data of the command's response when it completes from the state `s` (R66). -/
def responseData (i : Instr) (s : State) : Word :=
  match i with
  | .tgen => 0
  | .trd k => s.t.read k
  | .init => 0
  | .upd _ => 0
  | .fin => s.r ^^^ 0xFFFFFFFF

/-- The state after the command completes from the state `s`: R123 steps 6 to 8. -/
def completed (i : Instr) (s : State) : State :=
  match i with
  | .tgen => (genTable s).complete 0
  | .trd k => s.complete (s.t.read k)
  | .init => s.openCall.complete 0
  | .upd b => (foldByte b s).complete 0
  | .fin => s.closeCall.complete (checksum s)

/-! ### The invariant -/

/-- Every entry of the store is the generator's value (R25). -/
def Memory.holdsTable (m : Memory) : Prop := ∀ i, m.read i = tableEntry i

/-- What every reachable state satisfies. -/
structure State.Inv (s : State) : Prop where
  /-- The store is in canonical form. -/
  canonical : s.t.wf = true
  /-- `TV = 1` implies `T[i] = table_entry(i)` for every `i` (R25). -/
  tableRight : s.tv = true → s.t.holdsTable
  /-- `CAUSE` "is 0 while `FAULT = 0`" (R26). -/
  noCause : s.fault = false → s.cause = 0
  /-- While `FAULT = 1`, `CAUSE` is one of the four codes (R121). -/
  causeUsed : s.fault = true → ∃ c : Cause, s.cause = c.code
  /-- A fault leaves no call open (R124). -/
  faultCloses : s.fault = true → s.co = false
  /-- At most `BUDGET` commands complete after a reset (R132). -/
  withinBudget : ∀ N, s.budget = some N → s.ops ≤ N
  /-- "In state (0, 1) the register can only hold 0xFFFFFFFF" (R142). -/
  freshCall : s.tv = false → s.co = true → s.r = Config.RINIT

/-! ### Whole calls and runs -/

/-- `n` steps of the machine (the host's `Core.run` at this machine: `runSteps_eq_core_run` in Laws/Step.lean). -/
def runSteps : Nat → State → Host.Outcome State Fault Refusal
  | 0, s => .next s
  | n + 1, s =>
    match step s with
    | .next s' => runSteps n s'
    | .fault r => .fault r
    | .refused r => .refused r

/-- The host moves that present the commands in order. -/
def presenting (cmds : List Instr) : List HostMove := cmds.map fun i => .command (encode i)

/-- The commands between an `INIT` and its `FIN` as R108 allows them: `UPD`s with `TGEN`s and `TRD`s interleaved
anywhere, `TV = 1` at each `UPD` and `TRD`; the flag is `TV` before the first of them. -/
def callBody : Bool → List Instr → Bool
  | _, [] => true
  | _, .tgen :: cmds => callBody true cmds
  | tv, .trd _ :: cmds => tv && callBody tv cmds
  | tv, .upd _ :: cmds => tv && callBody tv cmds
  | _, .init :: _ => false
  | _, .fin :: _ => false

/-- The bytes folded by the commands, in order. -/
def bytesOf : List Instr → List Byte
  | [] => []
  | .upd b :: cmds => b :: bytesOf cmds
  | .tgen :: cmds => bytesOf cmds
  | .trd _ :: cmds => bytesOf cmds
  | .init :: cmds => bytesOf cmds
  | .fin :: cmds => bytesOf cmds

/-- The command's response carries an output of a run (R145: "the data of its `TRD` and `FIN` responses"). -/
def isOutput (cw : CmdWord) : Bool :=
  match decode cw with
  | .ok .tgen => false
  | .ok (.trd _) => true
  | .ok .init => false
  | .ok (.upd _) => false
  | .ok .fin => true
  | .error _ => false

/-- The outputs of a run of the words with the responses they got, in order (R145). -/
def runOutputs (words : List CmdWord) (rs : List Response) : List Word :=
  ((words.zip rs).filter fun p => isOutput p.1).map fun p => p.2.data

/-- "The run is successful exactly when `FAULT = 0` at its end" (R145). -/
def State.successful (s : State) : Bool := !s.fault

/-! ### What the host can observe -/

/-- Two states that agree on everything but the contents of `R` while no call is open, the contents of `T` while the
table is not valid, and the model's own count of free values: what R32 and R33 leave unspecified. -/
structure State.SameButUnspecified (s u : State) : Prop where
  /-- `CO`. -/
  co : s.co = u.co
  /-- `R`, while a call is open. -/
  r : s.co = true → s.r = u.r
  /-- `TV`. -/
  tv : s.tv = u.tv
  /-- `T`, while it is valid. -/
  t : s.tv = true → ∀ i, s.t.read i = u.t.read i
  /-- `FAULT`. -/
  fault : s.fault = u.fault
  /-- `CAUSE`. -/
  cause : s.cause = u.cause
  /-- `OPS`. -/
  ops : s.ops = u.ops
  /-- `BUDGET`. -/
  budget : s.budget = u.budget
  /-- The host's remaining moves. -/
  inputs : s.inputs = u.inputs
  /-- The responses received. -/
  responses : s.responses = u.responses

end Sys2Proof.Machine
end

