-- ==== Sys2Proof/Certificates/Slice0/Obligations.lean ====
section
/-! DEFINITION. The statements for the provers, from the numbered rules of spec/. Each is explained in
OBLIGATIONS.json. -/

open Sys2Proof Sys2Proof.Machine

/-! ### Words, commands, assembler -/

/-- A few words of R63 and vector V14, read as R63's rows have them; an `arg` that must be zero and is not, and an unused
opcode, are illegal. -/
def Obligations.SpecWordsDecode : Prop :=
  decode 0x0000 = .ok .tgen ∧ decode 0x0101 = .ok (.trd 0x01) ∧ decode 0x01FF = .ok (.trd 0xFF) ∧
  decode 0x0200 = .ok .init ∧ decode 0x0361 = .ok (.upd 0x61) ∧ decode 0x0400 = .ok .fin ∧
  decode 0x0001 = .error .nonZeroArg ∧ decode 0x0480 = .error .nonZeroArg ∧ decode 0x0500 = .error .reservedOpcode ∧
  decode 0xFFFF = .error .reservedOpcode

/-- R63: a word is the command of a row exactly when `(cw and mask) = match`, its argument being `cw[7:0]`. -/
def Obligations.WordsDecodeByTheirRow : Prop :=
  ∀ cw : CmdWord,
    (decode cw = .ok .tgen ↔ cw &&& 0xFFFF = 0x0000) ∧
    (∀ i, decode cw = .ok (.trd i) ↔ cw &&& 0xFF00 = 0x0100 ∧ i = cw.setWidth 8) ∧
    (decode cw = .ok .init ↔ cw &&& 0xFFFF = 0x0200) ∧
    (∀ b, decode cw = .ok (.upd b) ↔ cw &&& 0xFF00 = 0x0300 ∧ b = cw.setWidth 8) ∧
    (decode cw = .ok .fin ↔ cw &&& 0xFFFF = 0x0400)

/-- Decoding an encoded command gives it back, with every operand at every value, and every word that decodes is the
encoding of its command (R61, R63). -/
def Obligations.DecodeEncodeAgree : Prop :=
  (∀ i : Instr, i.wf = true → decode (encode i) = .ok i) ∧
  (∀ (cw : CmdWord) (i : Instr), decode cw = .ok i → encode i = cw)

/-- R64, R122: the illegal words are those with `op` of at least 0x05 and those with `op` 0x00, 0x02 or 0x04 and `arg`
not 0x00; presenting one in a ready state takes `IllegalCommand`, and nothing of any command is executed. -/
def Obligations.IllegalWordsRaiseIllegalCommand : Prop :=
  (∀ cw : CmdWord, (∃ e, decode cw = .error e) ↔
    0x05 ≤ (cmdOp cw).toNat ∨
    ((cmdOp cw = 0x00 ∨ cmdOp cw = 0x02 ∨ cmdOp cw = 0x04) ∧ cmdArg cw ≠ 0x00)) ∧
  (∀ (s : State) (cw : CmdWord) (rest : List HostMove) (e : Reject),
    s.ready → s.presents cw rest → decode cw = .error e →
    ∃ s', step s = .next s' ∧ (s.taken rest).faultedFrom .illegalCommand s')

/-- R70: assembling the printed text of a legal word gives the word back; an illegal word's text is no source line. -/
def Obligations.AssemblingDisassembledTextGivesTheWord : Prop :=
  ∀ cw : CmdWord,
    (legalWord cw = true → assembleLine (disassemble cw) = some [cw]) ∧
    (legalWord cw = false → assembleLine (disassemble cw) = none)

/-- R68: a decimal operand 0 to 255 assembles to the word of that argument; 256 is an assembly error. -/
def Obligations.DecimalOperandsAssemble : Prop :=
  (∀ n : Byte,
    assembleLine (['T', 'R', 'D', ' '] ++ Nat.toDigits 10 n.toNat) = some [0x0100 + n.setWidth 16] ∧
    assembleLine (['U', 'P', 'D', ' '] ++ Nat.toDigits 10 n.toNat) = some [0x0300 + n.setWidth 16]) ∧
  assembleLine ['T', 'R', 'D', ' ', '2', '5', '6'] = none ∧
  assembleLine ['U', 'P', 'D', ' ', '2', '5', '6'] = none

/-- R70 ("[derived: from rules R63 and R68]"): "no two different lines of legal text assemble to the same word except by the
choice of decimal or hexadecimal for the operand". What stands before the comment of a line that assembles to one word
is that word's printed text, or the same with the operand in decimal without leading zeros. That two layouts differing
in blanks only are not both legal, and which spelling of each radix is, is the model's reading (log entry 18). -/
def Obligations.LineOfAWordIsItsPrintedOrDecimalForm : Prop :=
  ∀ (line : List Char) (cw : CmdWord), assembleLine line = some [cw] →
    stripComment line = disassemble cw ∨
    ∃ n : Byte,
      (cw = 0x0100 + n.setWidth 16 ∧ stripComment line = ['T', 'R', 'D', ' '] ++ Nat.toDigits 10 n.toNat) ∨
      (cw = 0x0300 + n.setWidth 16 ∧ stripComment line = ['U', 'P', 'D', ' '] ++ Nat.toDigits 10 n.toNat)

/-- R69, both spellings: `CRC32 b0, ..., b(n-1)` stands for `INIT`, the `UPD`s in order, `FIN`; with an operand outside 0 to
255 it is an assembly error (R68). `CRC32 "text"` is the same with the ASCII codes of the characters, in order, with no
terminator; a character outside 0x20 to 0x7E or a double quote may not appear. -/
def Obligations.PseudoInstructionExpands : Prop :=
  (∀ bytes : List Byte,
    expandStmt (.crc32 (bytes.map BitVec.toNat)) = some ([.init] ++ bytes.map .upd ++ [.fin])) ∧
  (∀ ns : List Nat, (∃ n ∈ ns, 255 < n) → expandStmt (.crc32 ns) = none) ∧
  (∀ text : List Char, (∀ c ∈ text, 0x20 ≤ c.toNat ∧ c.toNat ≤ 0x7E ∧ c ≠ '"') →
    expandStmt (.crc32Text text) =
      some ([.init] ++ text.map (fun c => .upd (BitVec.ofNat 8 c.toNat)) ++ [.fin])) ∧
  (∀ text : List Char, (∃ c ∈ text, c.toNat < 0x20 ∨ 0x7E < c.toNat ∨ c = '"') →
    expandStmt (.crc32Text text) = none)

/-! ### The step and the command frame -/

/-- A step runs the decoded command: on a word that decodes to `i`, `step` is `exec i` at the state in which the host's
move has been taken; so it is for a word placed by `withFetchWord`. -/
def Obligations.StepRunsTheDecodedCommand : Prop :=
  (∀ (s : State) (cw : CmdWord) (rest : List HostMove) (i : Instr),
    s.presents cw rest → decode cw = .ok i → step s = exec i (s.taken rest)) ∧
  (∀ (s : State) (nbits w : Nat) (i : Instr),
    decodeTableWord nbits w = some i → step (s.withFetchWord nbits w) = exec i s)

/-- R67: a host that presents no command causes no change: the block waits with its state unchanged. That waiting is a step
of the model which changes nothing is the model's choice (log entry 1). -/
def Obligations.BlockWaitsWithoutACommand : Prop :=
  ∀ s : State, s.inputs = [] → step s = .next s

/-- No step of the machine stops: every state has a next state, whatever the host presents, and so has every command. As a
whole this is the model's claim, not the spec's: that no step ends in a fault or a refusal is log entry 16 (DEDUCED). For
commands R83, R104 and R127 say that no body can fail, for reset R140 says what it does in any state; that waiting
(R67) is a step of the model is log entry 1 (DESIGN CHOICE). -/
def Obligations.EveryStepAnswersANextState : Prop :=
  (∀ s : State, ∃ s', step s = .next s') ∧ (∀ (i : Instr) (s : State), ∃ s', exec i s = .next s')

/-- R66: every command word presented gets exactly one response. Status 0 says that the word was a command and completed,
with that command's data; any other status is the recorded cause, with data zero. -/
def Obligations.EveryCommandGetsOneResponse : Prop :=
  ∀ (s : State) (cw : CmdWord) (rest : List HostMove), s.Inv → s.presents cw rest →
    ∃ s' res, step s = .next s' ∧ s'.inputs = rest ∧ s'.responses = s.responses ++ [res] ∧
      (res.status = 0 → s'.fault = false ∧ s'.ops = s.ops + 1 ∧
        ∃ i, decode cw = .ok i ∧ res.data = responseData i s) ∧
      (res.status ≠ 0 → s'.fault = true ∧ res.status = s'.cause ∧ res.data = 0)

/-- R123, R132: the command frame with its priorities. The five checks are made in order, the first that fails decides, and
a command that passes them all completes. -/
def Obligations.FirstFailingCheckDecides : Prop :=
  ∀ (s : State) (cw : CmdWord) (rest : List HostMove), s.presents cw rest →
    (s.fault = true →
      step s = .next { s with inputs := rest, responses := s.responses ++ [⟨s.cause, 0⟩] }) ∧
    (∀ N, s.fault = false → s.budget = some N → N ≤ s.ops →
      ∃ s', step s = .next s' ∧ (s.taken rest).faultedFrom .budgetExceeded s') ∧
    (∀ e, s.ready → decode cw = .error e →
      ∃ s', step s = .next s' ∧ (s.taken rest).faultedFrom .illegalCommand s') ∧
    (∀ i, s.ready → decode cw = .ok i → needsTable i = true → s.tv = false →
      ∃ s', step s = .next s' ∧ (s.taken rest).faultedFrom .tableNotReady s') ∧
    (∀ i, s.ready → decode cw = .ok i → (needsTable i = true → s.tv = true) → needsCall i = true → s.co = false →
      ∃ s', step s = .next s' ∧ (s.taken rest).faultedFrom .noOpenCall s') ∧
    (∀ i, s.ready → decode cw = .ok i → (needsTable i = true → s.tv = true) → (needsCall i = true → s.co = true) →
      ∃ s', step s = .next s' ∧ s'.fault = false ∧ s'.cause = s.cause ∧ s'.ops = s.ops + 1 ∧
        s'.responses = s.responses ++ [⟨0, responseData i s⟩])

/-! ### Faults -/

/-- R124: a command word that takes the block from `FAULT = 0` to `FAULT = 1` sets `FAULT`, records a cause code 1 to 4,
clears `CO`, answers `(k, 0)` and does nothing else: `T`, `TV`, `OPS` keep their values. R121: the code of each of the four
faults, 0 being `OK` and 5 to 7 not used; each is raised only at the presentation of a command word, and only in its kind
of state. -/
def Obligations.FaultEntryDoesExactlyThis : Prop :=
  (∀ (c : Cause) (s : State), s.faultedFrom c (s.raise c)) ∧
  Cause.illegalCommand.code = 1 ∧ Cause.tableNotReady.code = 2 ∧ Cause.noOpenCall.code = 3 ∧
  Cause.budgetExceeded.code = 4 ∧ okStatus = 0 ∧ (∀ c : Cause, 1 ≤ c.code.toNat ∧ c.code.toNat ≤ 4) ∧
  (∀ s s' : State, s.fault = false → step s = .next s' → s'.fault = true →
    ∃ (cw : CmdWord) (rest : List HostMove) (c : Cause), s.presents cw rest ∧ (s.taken rest).faultedFrom c s' ∧
      (c = .illegalCommand → ∃ e, decode cw = .error e) ∧
      (c = .tableNotReady → s.tv = false ∧ ∃ i, decode cw = .ok i ∧ needsTable i = true) ∧
      (c = .noOpenCall → s.co = false ∧ ∃ i, decode cw = .ok i ∧ needsCall i = true) ∧
      (c = .budgetExceeded → ∃ N, s.budget = some N ∧ N ≤ s.ops))

/-- R125, R126: once a fault is recorded, any number of command words, legal or illegal, change nothing but the host's own
lists: each is answered with the recorded cause and data zero. -/
def Obligations.FaultedBlockOnlyAnswersItsCause : Prop :=
  ∀ (n : Nat) (s : State), s.fault = true → (∀ m ∈ s.inputs.take n, m ≠ .reset) →
    runSteps n s = .next
      { s with inputs := s.inputs.drop n,
               responses := s.responses ++ List.replicate (s.inputs.take n).length ⟨s.cause, 0⟩ }

/-- R132: with a ceiling `N`, any word presented at `OPS >= N` takes `BudgetExceeded` before it is decoded; without one, or
below it, no word does. -/
def Obligations.BudgetExceededExactlyAtTheCeiling : Prop :=
  ∀ (s : State) (cw : CmdWord) (rest : List HostMove), s.fault = false → s.presents cw rest →
    ∃ s', step s = .next s' ∧
      ((s'.fault = true ∧ s'.cause = Cause.budgetExceeded.code) ↔ ∃ N, s.budget = some N ∧ N ≤ s.ops)

/-! ### The five commands -/

/-- R85, `TGEN`. -/
def Obligations.TgenBuildsTheTable : Prop :=
  decode 0x0000 = .ok .tgen ∧ (∀ a : Byte, a ≠ 0 → decode (0x00#8 ++ a) = .error .nonZeroArg) ∧
  CommonChecks .tgen ∧
  (∀ s : State, s.ready → s.t.wf = true →
    ∃ m, m.wf = true ∧ m.holdsTable ∧ exec .tgen s = .next { s.completedWith 0 with t := m, tv := true }) ∧
  (∀ s : State, s.ready → s.Inv → s.tv = true → exec .tgen s = .next (s.completedWith 0)) ∧
  (∃ s', exec .tgen State.reset = .next s' ∧ s'.tv = true ∧ s'.t.read 0 = 0x00000000 ∧
    s'.t.read 1 = 0x77073096 ∧ s'.t.read 255 = 0x2D02EF8D ∧ s'.responses = [⟨0, 0⟩])

/-- R86, `TRD i`. -/
def Obligations.TrdReadsTheEntry : Prop :=
  (∀ i : Byte, decode (0x0100 + i.setWidth 16) = .ok (.trd i) ∧ CommonChecks (.trd i)) ∧
  (∀ (s : State) (i : Byte), s.ready → s.tv = true → exec (.trd i) s = .next (s.completedWith (s.t.read i))) ∧
  (∀ (s : State) (i : Byte), s.ready → s.Inv → s.tv = true →
    exec (.trd i) s = .next (s.completedWith (tableEntry i))) ∧
  (∀ (s : State) (i : Byte), s.ready → s.tv = false →
    ∃ s', exec (.trd i) s = .next s' ∧ s.faultedFrom .tableNotReady s') ∧
  tableEntry 0 = 0x00000000 ∧ tableEntry 1 = 0x77073096

/-- R105, `INIT`. -/
def Obligations.InitOpensACall : Prop :=
  decode 0x0200 = .ok .init ∧ (∀ a : Byte, a ≠ 0 → decode (0x02#8 ++ a) = .error .nonZeroArg) ∧
  CommonChecks .init ∧
  (∀ s : State, s.ready → exec .init s = .next { s.completedWith 0 with r := 0xFFFFFFFF, co := true })

/-- R106, `UPD b`. -/
def Obligations.UpdFoldsTheByte : Prop :=
  (∀ b : Byte, decode (0x0300 + b.setWidth 16) = .ok (.upd b) ∧ CommonChecks (.upd b)) ∧
  (∀ (s : State) (b : Byte), s.ready → s.tv = true → s.co = true →
    exec (.upd b) s = .next { s.completedWith 0 with
      r := (s.r >>> 8) ^^^ s.t.read (((s.r ^^^ b.setWidth 32) &&& 0x000000FF).setWidth 8) }) ∧
  (∀ (s : State) (b : Byte), s.ready → s.Inv → s.tv = true → s.co = true →
    exec (.upd b) s = .next { s.completedWith 0 with r := update s.r b }) ∧
  (∀ (s : State) (b : Byte), s.ready → s.tv = false →
    ∃ s', exec (.upd b) s = .next s' ∧ s.faultedFrom .tableNotReady s') ∧
  (∀ (s : State) (b : Byte), s.ready → s.tv = true → s.co = false →
    ∃ s', exec (.upd b) s = .next s' ∧ s.faultedFrom .noOpenCall s') ∧
  update 0xFFFFFFFF 0x61 = 0x174841BC

/-- R107, `FIN`. What `R` holds afterwards is unspecified, so nothing is said of it. -/
def Obligations.FinDeliversTheChecksum : Prop :=
  decode 0x0400 = .ok .fin ∧ (∀ a : Byte, a ≠ 0 → decode (0x04#8 ++ a) = .error .nonZeroArg) ∧
  CommonChecks .fin ∧
  (∀ s : State, s.ready → s.co = true → ∃ x n,
    exec .fin s = .next { s.completedWith (s.r ^^^ 0xFFFFFFFF) with co := false, r := x, freeCount := n }) ∧
  (∀ s : State, s.ready → s.co = false → ∃ s', exec .fin s = .next s' ∧ s.faultedFrom .noOpenCall s') ∧
  (∀ s : State, s.ready → s.budgetFor 2 → ∃ s₁ s₂, exec .init s = .next s₁ ∧ exec .fin s₁ = .next s₂ ∧
    s₂.responses = s.responses ++ [⟨0, 0⟩, ⟨0, 0⟩]) ∧
  (∀ s s' : State, s.ready → s.budgetFor 2 → s.co = true → exec .fin s = .next s' →
    (∃ u, exec .fin s' = .next u ∧ s'.faultedFrom .noOpenCall u) ∧
    (∀ b, s.tv = true → ∃ u, exec (.upd b) s' = .next u ∧ s'.faultedFrom .noOpenCall u)) ∧
  (∀ s : State, s.ready → s.co = true → s.r = 0x174841BC →
    ∃ s', exec .fin s = .next s' ∧ s'.co = false ∧ s'.responses = s.responses ++ [⟨0, 0xE8B7BE43⟩])

/-- R142 ("[derived: from `60_exceptions.md` rule R123 and the command rules]"): the outcome of each command in each of the four `(TV, CO)` states, and the next `(TV, CO)`; a
fault outcome leads to the faulted state, in which every command gets the recorded cause. -/
def Obligations.OutcomesInTheFourStates : Prop :=
  (∀ i, CommonChecks i) ∧
  ∀ s : State, s.ready →
    (s.t.wf = true →
      ∃ s', exec .tgen s = .next s' ∧ s'.fault = false ∧ s'.tv = true ∧ s'.co = s.co ∧ (s.co = true → s'.r = s.r)) ∧
    (∀ i, (s.tv = true → exec (.trd i) s = .next (s.completedWith (s.t.read i))) ∧
      (s.tv = false → ∃ s', exec (.trd i) s = .next s' ∧ s.faultedFrom .tableNotReady s')) ∧
    (∃ s', exec .init s = .next s' ∧ s'.fault = false ∧ s'.tv = s.tv ∧ s'.co = true ∧ s'.r = 0xFFFFFFFF) ∧
    (∀ b, (s.tv = false → ∃ s', exec (.upd b) s = .next s' ∧ s.faultedFrom .tableNotReady s') ∧
      (s.tv = true → s.co = false → ∃ s', exec (.upd b) s = .next s' ∧ s.faultedFrom .noOpenCall s') ∧
      (s.Inv → s.tv = true → s.co = true → ∃ s', exec (.upd b) s = .next s' ∧ s'.fault = false ∧
        s'.tv = true ∧ s'.co = true ∧ s'.r = update s.r b)) ∧
    (s.co = false → ∃ s', exec .fin s = .next s' ∧ s.faultedFrom .noOpenCall s') ∧
    (s.co = true → ∃ s', exec .fin s = .next s' ∧ s'.fault = false ∧ s'.tv = s.tv ∧ s'.co = false ∧
      s'.responses = s.responses ++ [⟨0, s.r ^^^ 0xFFFFFFFF⟩]) ∧
    (s.Inv → s.tv = false → s.co = true → ∃ s', exec .fin s = .next s' ∧
      s'.responses = s.responses ++ [⟨0, 0x00000000⟩])

/-! ### What commands leave unchanged -/

/-- R23, R40, R42: no command but `TGEN` changes any entry of the table store, whether it completes or faults. -/
def Obligations.OnlyTgenWritesTheTable : Prop :=
  ∀ (i : Instr) (s s' : State), i ≠ .tgen → exec i s = .next s' → ∀ a, s'.t.read a = s.t.read a

/-- R21, R22: after a command, an open call's register is either the one that `INIT` created, the one `UPD` updated, or
untouched. -/
def Obligations.RegisterWrittenOnlyByInitAndUpd : Prop :=
  ∀ (i : Instr) (s s' : State), exec i s = .next s' → s'.co = true →
    (i = .init ∧ s'.r = 0xFFFFFFFF) ∨ (s.co = true ∧ (∃ b, i = .upd b)) ∨ (s.co = true ∧ s'.r = s.r)

/-- R140, R24, R26, R27, R6: no command word clears `FAULT`, `TV` or `OPS`, replaces a recorded cause or touches `BUDGET`. -/
def Obligations.NoCommandClearsFaultTableOrCount : Prop :=
  ∀ (s : State) (cw : CmdWord) (rest : List HostMove), s.presents cw rest →
    ∃ s', step s = .next s' ∧ (s.fault = true → s'.fault = true ∧ s'.cause = s.cause) ∧
      (s.tv = true → s'.tv = true) ∧ s.ops ≤ s'.ops ∧ s'.budget = s.budget ∧
      (s.fault = false → s'.fault = false → s'.cause = s.cause)

/-- R27: `OPS` grows by one with each command that completes and by nothing else a command does. -/
def Obligations.OpsCountsCompletedCommands : Prop :=
  ∀ (s : State) (cw : CmdWord) (rest : List HostMove), s.presents cw rest →
    ∃ s', step s = .next s' ∧
      ((s.fault = false ∧ s'.fault = false ∧ s'.ops = s.ops + 1) ∨ (s'.fault = true ∧ s'.ops = s.ops))

/-! ### Reset and the invariant -/

/-- R32: what reset leaves, where the rule gives a value; it gives none for `R` and `T`. -/
def Obligations.ResetLeavesTheStatedValues : Prop :=
  ∀ s : State, (∃ b, s = State.resetWith b) ∨ (∃ u, s = State.applyReset u) →
    s.co = false ∧ s.tv = false ∧ s.fault = false ∧ s.cause = 0 ∧ s.ops = 0

/-- R140: a reset move puts the block, in any state, into the reset state, and yields no response. That the parameter and
the host's own lists stay is the model's form (log entry 9). -/
def Obligations.ResetWorksInAnyState : Prop :=
  ∀ (s : State) (rest : List HostMove), s.inputs = .reset :: rest →
    ∃ s', step s = .next s' ∧ s'.co = false ∧ s'.tv = false ∧ s'.fault = false ∧ s'.cause = 0 ∧ s'.ops = 0 ∧
      s'.responses = s.responses ∧ s'.inputs = rest ∧ s'.budget = s.budget

/-- The invariant holds at reset, under every value of the parameter. -/
def Obligations.ResetSatisfiesTheInvariant : Prop :=
  State.reset.Inv ∧ ∀ b, (State.resetWith b).Inv

/-- Every step keeps the invariant: the store's canonical form, R25's table, R26's cause, R124's closed call, R132's
ceiling and R142's fresh register. -/
def Obligations.EveryStepKeepsTheInvariant : Prop :=
  ∀ s s' : State, s.Inv → step s = .next s' → s'.Inv

/-- R25 ("[derived: from rules R23, R24, R32 and ... R85]"): in every state reachable from reset, under any parameter and any moves of the host, `TV = 1` implies
`T[i] = table_entry(i)`. -/
def Obligations.ReachableTableIsRight : Prop :=
  ∀ (b : Option Nat) (moves : List HostMove) (n : Nat),
    ∃ s', runSteps n { State.resetWith b with inputs := moves } = .next s' ∧
      (s'.tv = true → ∀ i, s'.t.read i = tableEntry i)

/-! ### The functions -/

/-- R80: `bitstep`, by the case of bit 0 before the shift, and at its corner cases. -/
def Obligations.BitstepIsOneDivisionStep : Prop :=
  (∀ c : Word, c.getLsbD 0 = true → bitstep c = (c >>> 1) ^^^ 0xEDB88320) ∧
  (∀ c : Word, c.getLsbD 0 = false → bitstep c = c >>> 1) ∧
  bitstep 0x00000000 = 0x00000000 ∧ bitstep 0x00000001 = 0xEDB88320 ∧ bitstep 0x00000002 = 0x00000001 ∧
  bitstep 0x80000000 = 0x40000000 ∧ bitstep 0xFFFFFFFF = 0x92477CDF

/-- R81: `table_entry` is eight bit steps from the zero-extended index; the worked example. -/
def Obligations.TableEntryIsEightBitSteps : Prop :=
  (∀ i : Byte, tableEntry i =
    bitstep (bitstep (bitstep (bitstep (bitstep (bitstep (bitstep (bitstep (i.setWidth 32))))))))) ∧
  (List.range 9).map (fun k => bitsteps k 1) =
    [0x00000001, 0xEDB88320, 0x76DC4190, 0x3B6E20C8, 0x1DB71064, 0x0EDB8832, 0x076DC419, 0xEE0E612C, 0x77073096]

/-- R82: the table is the 256 entries, entry `i` at position `i`. -/
def Obligations.TableIsEveryEntryInPlace : Prop :=
  table.length = 256 ∧ ∀ i : Byte, table[i.toNat]? = some (tableEntry i)

/-- What the spec itself derives from R80 and R81: R80's branch-free form ("[derived: from the definition]") and R84 (a)
to (e) ("[derived: from rules R80 and R81, by evaluation]"). -/
def Obligations.TableEntriesAreLinearAndDistinct : Prop :=
  (∀ c : Word, bitstep c = (c >>> 1) ^^^ (0xEDB88320 &&& (if c.getLsbD 0 then 0xFFFFFFFF else 0x00000000))) ∧
  tableEntry 0 = 0x00000000 ∧ tableEntry 128 = 0xEDB88320 ∧
  (∀ x y : Word, bitstep (x ^^^ y) = bitstep x ^^^ bitstep y) ∧
  (∀ a b : Byte, tableEntry (a ^^^ b) = tableEntry a ^^^ tableEntry b) ∧
  [tableEntry 0x01, tableEntry 0x02, tableEntry 0x04, tableEntry 0x08, tableEntry 0x10, tableEntry 0x20,
    tableEntry 0x40, tableEntry 0x80] =
    [0x77073096, 0xEE0E612C, 0x076DC419, 0x0EDB8832, 0x1DB71064, 0x3B6E20C8, 0x76DC4190, 0xEDB88320] ∧
  tableEntry 3 = 0x990951BA ∧ tableEntry 255 = 0x2D02EF8D ∧
  (∀ a b : Byte, tableEntry a = tableEntry b → a = b)

/-- R100: `update`, its index computed from `r` before the shift, and its corner cases. -/
def Obligations.UpdateFoldsOneByte : Prop :=
  (∀ (r : Word) (b : Byte),
    update r b = (r >>> 8) ^^^ tableEntry (((r ^^^ b.setWidth 32) &&& 0x000000FF).setWidth 8)) ∧
  update 0xFFFFFFFF 0xFF = 0x00FFFFFF ∧ update 0xFFFFFFFF 0x00 = 0x2DFD1072 ∧ update 0x00000000 0x00 = 0x00000000

/-- R101: `crc32` is one pass over the bytes in order, from 0xFFFFFFFF to a final complement; the source's known vector. -/
def Obligations.Crc32FoldsTheBytesInOrder : Prop :=
  (∀ bytes : List Byte, crc32 bytes = bytes.foldl update 0xFFFFFFFF ^^^ 0xFFFFFFFF) ∧
  (∀ (bytes : List Byte) (b : Byte), crc32 (bytes ++ [b]) = update (crc32 bytes ^^^ 0xFFFFFFFF) b ^^^ 0xFFFFFFFF) ∧
  crc32 ("The quick brown fox jumps over the lazy dog".toList.map fun c => BitVec.ofNat 8 c.toNat) = 0x414FA339

/-- What the spec derives for `crc32`: the index as `r[7:0] xor b` (R100, "[derived: `and 0xFF` keeps bits 7 to 0 only]"), the
empty sequence (R102, "[derived: from rule R101 with `n = 0`]"), R103's pair that shows the order matters, and R110 (a) to
(d) ("[derived: from rules R100, R101 ..., by evaluation]"). -/
def Obligations.Crc32Properties : Prop :=
  (∀ (r : Word) (b : Byte), update r b = (r >>> 8) ^^^ tableEntry (r.setWidth 8 ^^^ b)) ∧
  crc32 [] = 0x00000000 ∧ crc32 [1, 2, 3] = 0x55BC801D ∧ crc32 [3, 2, 1] = 0xB836355F ∧
  (∀ v : Byte, crc32 [v] = tableEntry (v ^^^ 0xFF) ^^^ 0xFF000000) ∧
  crc32 [0xFF] = 0xFF000000 ∧ crc32 [0x00] = 0xD202EF8D ∧ crc32 [0xFF, 0xFF, 0xFF, 0xFF] = 0xFFFFFFFF ∧
  (∀ p x : List Byte, crc32 (p ++ x) = x.foldl update (crc32 p ^^^ 0xFFFFFFFF) ^^^ 0xFFFFFFFF)

/-! ### Whole calls and runs -/

/-- R108 ("[derived: from rules R101, R105, R106, R107 and ... R85, R86]"): `INIT`, `UPD`s with `TGEN`s and `TRD`s interleaved anywhere, `FIN`, issued with `FAULT = 0`, `TV = 1` at each
`UPD` and `TRD`, and budget for them all: every command completes with status 0 and the data of the response to `FIN`
is `crc32` of the bytes. -/
def Obligations.CallDeliversCrc32OfItsBytes : Prop :=
  ∀ (s : State) (body : List Instr) (rest : List HostMove), s.Inv → s.fault = false →
    callBody s.tv body = true → s.budgetFor (body.length + 2) →
    s.inputs = presenting ([.init] ++ body ++ [.fin]) ++ rest →
    ∃ s' rs, runSteps (body.length + 2) s = .next s' ∧
      s'.responses = s.responses ++ rs ++ [⟨0, crc32 (bytesOf body)⟩] ∧
      rs.length = body.length + 1 ∧ (∀ res ∈ rs, res.status = 0) ∧
      s'.inputs = rest ∧ s'.fault = false ∧ s'.co = false ∧ s'.ops = s.ops + body.length + 2

/-- R109 ("[derived: from rules R105, R106, R107]"): `INIT` overwrites the register, so two ready states that differ in it (and in whether a call was open) are the
same after `INIT`. -/
def Obligations.InitForgetsEarlierCalls : Prop :=
  ∀ (s : State) (x y : Word) (p q : Bool), s.ready →
    ∃ s', exec .init { s with r := x, co := p } = .next s' ∧ exec .init { s with r := y, co := q } = .next s'

/-- R33 ("[derived: from rules R22 and R24]"): the contents of `R` while no call is open, and of `T` while the table is not valid, are never observed: states that
differ in nothing else get the same responses from any moves of the host, and differ in nothing else afterwards. -/
def Obligations.UnspecifiedContentsAreNeverObserved : Prop :=
  ∀ (n : Nat) (s u : State), s.SameButUnspecified u → s.t.wf = true → u.t.wf = true →
    ∃ s' u', runSteps n s = .next s' ∧ runSteps n u = .next u' ∧ s'.SameButUnspecified u'

/-- R145: a run of command words ends with `FAULT = 0` exactly when every response of the run has status 0. -/
def Obligations.RunSucceedsExactlyWhenEveryStatusIsOk : Prop :=
  ∀ (n : Nat) (s : State), s.Inv → s.fault = false → (∀ m ∈ s.inputs.take n, m ≠ .reset) →
    ∃ s' rs, runSteps n s = .next s' ∧ s'.responses = s.responses ++ rs ∧
      rs.length = (s.inputs.take n).length ∧
      (s'.successful = true ↔ ∀ res ∈ rs, res.status = 0)

/-- R132: a full computation of `n` bytes, `TGEN`, `INIT`, `n` times `UPD`, `FIN`, needs a ceiling of at least `n + 3`: with
that its one output is the checksum; with less, exactly `N` commands complete, none of them the `FIN`, and every later word
is answered `BudgetExceeded`. -/
def Obligations.BudgetDecidesAFullComputation : Prop :=
  ∀ (s : State) (bytes : List Byte) (N : Nat), s.Inv → s.fault = false → s.budget = some N → s.ops = 0 →
    s.inputs = presenting ([.tgen, .init] ++ bytes.map .upd ++ [.fin]) →
    ∃ s' rs, runSteps (bytes.length + 3) s = .next s' ∧ s'.responses = s.responses ++ rs ∧
      (bytes.length + 3 ≤ N → s'.successful = true ∧
        runOutputs (([.tgen, .init] ++ bytes.map .upd ++ [.fin] : List Instr).map encode) rs = [crc32 bytes]) ∧
      (N < bytes.length + 3 → s'.fault = true ∧ s'.cause = Cause.budgetExceeded.code ∧ s'.ops = N ∧
        rs = List.replicate N ⟨0, 0⟩ ++ List.replicate (bytes.length + 3 - N) ⟨Cause.budgetExceeded.code, 0⟩)
end

