-- ==== Sys2Proof/Laws/Assembler.lean ====
section
/-! SUPPORT. What the parts of the assembler can do, said once (spec/30_encoding.md R68 to R70). -/

namespace Sys2Proof.Machine

/-- A number that is read stands in one of its two spellings (R70). -/
theorem number_spelling {cs : List Char} {n : Nat} (h : number cs = some n) : cs = decimal n ∨ cs = hex 2 n := by
  simp only [number, Option.filter_eq_some_iff, Bool.or_eq_true, beq_iff_eq] at h
  exact h.2

/-- An operand that is read is one space and a number in one of its two spellings. -/
theorem operand_spelling {cs : List Char} {n : Nat} (h : operand cs = some n) :
    cs = ' ' :: decimal n ∨ cs = ' ' :: hex 2 n := by
  unfold operand at h
  split at h
  · simpa using number_spelling h
  · cases h

/-- Only a well-formed statement stands for commands (R68, R69). -/
theorem wf_of_expandStmt {st : AsmStmt} {is : List Instr} (h : expandStmt st = some is) : st.wf = true := by
  unfold expandStmt at h
  split at h
  · assumption
  · cases h

/-- What `CRC32` expands to has at least the commands `INIT` and `FIN` (R69). -/
theorem two_le_length_callOf (bytes : List Byte) : 2 ≤ (callOf bytes).length := by simp [callOf]

/-- A mnemonic holds no blank and no `;`. -/
theorem isMnemonicChar_ne {c : Char} (h : isMnemonicChar c = true) : isBlank c = false ∧ (c != ';') = true := by
  constructor
  · by_contra hb
    simp only [isBlank, Bool.not_eq_false, Bool.or_eq_true, beq_iff_eq] at hb
    rcases hb with rfl | rfl <;> exact absurd h (by decide)
  · by_contra hs
    simp only [bne_iff_ne, ne_eq, not_not] at hs
    exact absurd (hs ▸ h) (by decide)

/-- Dropping blanks at the end stops at a text that ends in none. -/
theorem trimEnd_append {m : List Char} (hm : ∀ c ∈ m, isBlank c = false) (cs : List Char) :
    trimEnd (m ++ cs) = m ++ trimEnd cs := by
  have h : m.reverse.dropWhile isBlank = m.reverse := by
    rcases hr : m.reverse with _ | ⟨c, r⟩
    · rfl
    · exact List.dropWhile_cons_of_neg (by simp [hm c (List.mem_reverse.1 (hr ▸ List.mem_cons_self))])
  simp only [trimEnd, List.reverse_append, List.dropWhile_append, h]
  split <;> simp_all

/-- The comment of a line is the comment of what follows the mnemonic. -/
theorem stripComment_append {m : List Char} (hm : ∀ c ∈ m, isMnemonicChar c = true) (rest : List Char) :
    stripComment (m ++ rest) = m ++ stripComment rest := by
  have hs : ∀ c ∈ m, (c != ';') = true := fun c hc => (isMnemonicChar_ne (hm c hc)).2
  have hmem : m.contains ';' = false := by
    simp only [List.contains_eq_mem, decide_eq_false_iff_not]
    exact fun hc => absurd (hs _ hc) (by decide)
  have hc : (m ++ rest).contains ';' = rest.contains ';' := by simp_all
  simp only [stripComment, hc, List.takeWhile_append_of_pos hs]
  split
  · exact trimEnd_append (fun c hc => (isMnemonicChar_ne (hm c hc)).1) _
  · rfl

/-- The operand-free statements take no operand. -/
theorem bareOperand_cases {st st' : AsmStmt} {rest : List Char} (h : bareOperand st rest = some st') :
    stripComment rest = [] ∧ st' = st := by
  unfold bareOperand at h
  split at h
  · exact ⟨‹_›, (Option.some.inj h).symm⟩
  · cases h

end Sys2Proof.Machine
end

