-- ==== Sys2Proof/Laws/Memory.lean ====
section
/-! SUPPORT. The laws of the table store: the canonical form is kept by every operation, a read after a write, a write
leaves the other entries alone, and equal reads make equal canonical stores. -/

namespace Sys2Proof.Machine

/-- A store whose listed indices all lie at or above `lo` reads as unlisted below it. -/
theorem Memory.read_below {m : Memory} {lo : Nat} (h : m.wfFrom lo = true) {i : Byte} (hi : i.toNat < lo) :
    m.read i = Memory.unlisted := by
  induction m generalizing lo with
  | nil => rfl
  | cons p m ih =>
    obtain ⟨a, v⟩ := p
    simp only [Memory.wfFrom, Bool.and_eq_true, decide_eq_true_eq] at h
    rw [Memory.read, if_neg (by omega)]
    exact ih h.2 (by omega)

/-- A lower bound may be lowered. -/
theorem Memory.wfFrom_mono {m : Memory} {lo lo' : Nat} (h : m.wfFrom lo = true) (hle : lo' ≤ lo) :
    m.wfFrom lo' = true := by
  cases m with
  | nil => rfl
  | cons p m =>
    simp only [Memory.wfFrom, Bool.and_eq_true, decide_eq_true_eq] at h ⊢
    exact ⟨⟨⟨by omega, h.1.1.2⟩, h.1.2⟩, h.2⟩

/-- `put` keeps the canonical form. -/
theorem Memory.wfFrom_put {m : Memory} {lo a : Nat} (v : Word) (h : m.wfFrom lo = true) (hlo : lo ≤ a)
    (ha : a < Config.NENT) : (m.put a v).wfFrom lo = true := by
  induction m generalizing lo with
  | nil => by_cases hv : v = Memory.unlisted <;> simp [Memory.put, Memory.cell, Memory.wfFrom, *]
  | cons p m ih =>
    obtain ⟨b, w⟩ := p
    simp only [Memory.wfFrom, Bool.and_eq_true, decide_eq_true_eq] at h
    obtain ⟨⟨⟨hb, hN⟩, hw⟩, hm⟩ := h
    rw [Memory.put]
    split_ifs with h1 h2
    · by_cases hv : v = Memory.unlisted
      · simp_all [Memory.cell, Memory.wfFrom]
      · simp only [Memory.cell, if_neg hv, List.cons_append, List.nil_append, Memory.wfFrom, Bool.and_eq_true,
          decide_eq_true_eq, bne_iff_ne]
        exact ⟨⟨⟨hlo, ha⟩, hv⟩, ⟨⟨by omega, hN⟩, by simpa using hw⟩, hm⟩
    · subst h2
      by_cases hv : v = Memory.unlisted
      · simpa [Memory.cell, hv] using Memory.wfFrom_mono hm (by omega)
      · simp [Memory.cell, hv, Memory.wfFrom, hlo, ha, hm]
    · simp only [Memory.wfFrom, Bool.and_eq_true, decide_eq_true_eq]
      exact ⟨⟨⟨hb, hN⟩, hw⟩, ih hm (by omega)⟩

/-- An index of 8 bits lies in the table space. -/
theorem index_lt (i : Byte) : i.toNat < Config.NENT := i.isLt

/-- `write` keeps the canonical form. -/
theorem Memory.wf_write {m : Memory} (h : m.wf = true) (i : Byte) (v : Word) : (m.write i v).wf = true :=
  Memory.wfFrom_put v h (Nat.zero_le _) (index_lt i)

/-- `fill` keeps the canonical form. -/
theorem Memory.wf_fill {m : Memory} (h : m.wf = true) (f : Byte → Word) (n : Nat) : (m.fill f n).wf = true := by
  induction n generalizing m with
  | zero => rwa [Memory.fill]
  | succ n ih => rw [Memory.fill]; exact ih (Memory.wf_write h _ _)

/-- Reading past the cell for index `a`. -/
theorem Memory.read_cell_append {m : Memory} {a : Nat} (v : Word) (h : m.wfFrom (a + 1) = true) (i : Byte) :
    Memory.read (Memory.cell a v ++ m) i = if a = i.toNat then v else m.read i := by
  unfold Memory.cell
  split_ifs with hv hi
  · exact (Memory.read_below h (by omega)).trans hv.symm
  · rfl
  · simp [Memory.read, *]
  · simp [Memory.read, *]

/-- Reading after `put`. -/
theorem Memory.read_put {m : Memory} {lo a : Nat} (v : Word) (h : m.wfFrom lo = true) (i : Byte) :
    (m.put a v).read i = if a = i.toNat then v else m.read i := by
  induction m generalizing lo with
  | nil => simpa [Memory.put] using Memory.read_cell_append (m := []) v rfl i
  | cons p m ih =>
    obtain ⟨b, w⟩ := p
    simp only [Memory.wfFrom, Bool.and_eq_true, decide_eq_true_eq] at h
    rw [Memory.put]
    by_cases h1 : a < b
    · rw [if_pos h1, Memory.read_cell_append]
      simp only [Memory.wfFrom, Bool.and_eq_true, decide_eq_true_eq]
      exact ⟨⟨⟨h1, h.1.1.2⟩, h.1.2⟩, h.2⟩
    · by_cases h2 : a = b
      · subst h2
        rw [if_neg h1, if_pos rfl, Memory.read_cell_append v h.2, Memory.read]
        split_ifs <;> rfl
      · rw [if_neg h1, if_neg h2, Memory.read, Memory.read, ih h.2]
        split_ifs with h3 h4
        · omega
        all_goals rfl

/-- A read after a write to the same entry gives the value written. -/
theorem Memory.read_write_same {m : Memory} (h : m.wf = true) (i : Byte) (v : Word) : (m.write i v).read i = v := by
  simp [Memory.write, Memory.read_put v h]

/-- A write leaves every other entry alone. -/
theorem Memory.read_write_other {m : Memory} (h : m.wf = true) {i j : Byte} (v : Word) (hij : i ≠ j) :
    (m.write i v).read j = m.read j := by
  rw [Memory.write, Memory.read_put v h, if_neg (fun e => hij (BitVec.eq_of_toNat_eq e))]

/-- Reading after `fill`. -/
theorem Memory.read_fill {m : Memory} (h : m.wf = true) (f : Byte → Word) {n : Nat} (hn : n ≤ Config.NENT) (i : Byte) :
    (m.fill f n).read i = if i.toNat < n then f i else m.read i := by
  induction n generalizing m with
  | zero => rw [Memory.fill, if_neg (Nat.not_lt_zero _)]
  | succ n ih =>
    rw [Memory.fill, ih (Memory.wf_write h _ _) (by omega)]
    have hN : Config.NENT = 256 := rfl
    by_cases hlt : i.toNat < n
    · rw [if_pos hlt, if_pos (by omega)]
    · by_cases he : i.toNat = n
      · have hi : BitVec.ofNat 8 n = i := by rw [← he]; simp
        rw [if_neg hlt, if_pos (by omega), hi, Memory.read_write_same h]
      · rw [if_neg hlt, if_neg (by omega), Memory.read_write_other h]
        rintro rfl
        exact he (Nat.mod_eq_of_lt (by omega))

/-- Filling the whole store leaves in every entry the value written there. -/
theorem Memory.read_fill_all {m : Memory} (h : m.wf = true) (f : Byte → Word) (i : Byte) :
    (m.fill f Config.NENT).read i = f i := by
  rw [Memory.read_fill h f (Nat.le_refl _), if_pos (index_lt i)]

/-- Canonical stores from `lo` on that read alike are equal. -/
theorem Memory.eq_of_wfFrom {m n : Memory} {lo : Nat} (hm : m.wfFrom lo = true) (hn : n.wfFrom lo = true)
    (h : ∀ i, m.read i = n.read i) : m = n := by
  have hN : Config.NENT = 256 := rfl
  induction m generalizing n lo with
  | nil =>
    cases n with
    | nil => rfl
    | cons p n =>
      obtain ⟨a, v⟩ := p
      simp only [Memory.wfFrom, Bool.and_eq_true, decide_eq_true_eq, bne_iff_ne] at hn
      have ha : (BitVec.ofNat 8 a).toNat = a := Nat.mod_eq_of_lt (by omega)
      exact absurd (by simpa [Memory.read, ha] using (h (BitVec.ofNat 8 a)).symm) hn.1.2
  | cons p m ih =>
    obtain ⟨a, v⟩ := p
    simp only [Memory.wfFrom, Bool.and_eq_true, decide_eq_true_eq, bne_iff_ne] at hm
    have ha : (BitVec.ofNat 8 a).toNat = a := Nat.mod_eq_of_lt (by omega)
    have hra := h (BitVec.ofNat 8 a)
    rw [Memory.read, if_pos ha.symm] at hra
    cases n with
    | nil => exact absurd hra hm.1.2
    | cons q n =>
      obtain ⟨b, w⟩ := q
      simp only [Memory.wfFrom, Bool.and_eq_true, decide_eq_true_eq, bne_iff_ne] at hn
      have hb : (BitVec.ofNat 8 b).toNat = b := Nat.mod_eq_of_lt (by omega)
      have hrb := h (BitVec.ofNat 8 b)
      rw [Memory.read, Memory.read, if_pos hb.symm, hb] at hrb
      have hab : a = b := by
        by_contra hne
        rcases Nat.lt_or_gt_of_ne hne with hl | hl
        · rw [Memory.read, if_neg (by omega), Memory.read_below hn.2 (by omega)] at hra
          exact hm.1.2 hra
        · rw [if_neg (by omega), Memory.read_below hm.2 (by omega)] at hrb
          exact hn.1.2 hrb.symm
      subst hab
      have hvw : v = w := by simpa using hrb
      subst hvw
      rw [ih hm.2 hn.2 fun i => ?_]
      by_cases hi : i.toNat < a + 1
      · rw [Memory.read_below hm.2 hi, Memory.read_below hn.2 hi]
      · have := h i
        simpa [Memory.read, show a ≠ i.toNat by omega] using this

/-- Canonical stores that read alike are equal. -/
theorem Memory.eq_of_read {m n : Memory} (hm : m.wf = true) (hn : n.wf = true) (h : ∀ i, m.read i = n.read i) :
    m = n := Memory.eq_of_wfFrom hm hn h

/-- The reset store is canonical. -/
theorem resetWith_wf (b : Option Nat) : (State.resetWith b).t.wf = true := rfl

end Sys2Proof.Machine
end

