-- ==== Sys2Proof/Laws/State.lean ====
section
/-! SUPPORT. One lemma per field per update of State, so that no later proof unfolds a record update. -/

namespace Sys2Proof.Machine

/-! ### `State.respond` -/

@[simp] theorem State.respond_r (st : Status) (d : Word) (s : State) : (s.respond st d).r = s.r := rfl
@[simp] theorem State.respond_co (st : Status) (d : Word) (s : State) : (s.respond st d).co = s.co := rfl
@[simp] theorem State.respond_t (st : Status) (d : Word) (s : State) : (s.respond st d).t = s.t := rfl
@[simp] theorem State.respond_tv (st : Status) (d : Word) (s : State) : (s.respond st d).tv = s.tv := rfl
@[simp] theorem State.respond_fault (st : Status) (d : Word) (s : State) : (s.respond st d).fault = s.fault := rfl
@[simp] theorem State.respond_cause (st : Status) (d : Word) (s : State) : (s.respond st d).cause = s.cause := rfl
@[simp] theorem State.respond_ops (st : Status) (d : Word) (s : State) : (s.respond st d).ops = s.ops := rfl
@[simp] theorem State.respond_budget (st : Status) (d : Word) (s : State) : (s.respond st d).budget = s.budget := rfl
@[simp] theorem State.respond_inputs (st : Status) (d : Word) (s : State) : (s.respond st d).inputs = s.inputs := rfl
@[simp] theorem State.respond_responses (st : Status) (d : Word) (s : State) : (s.respond st d).responses = s.responses ++ [⟨st, d⟩] := rfl
@[simp] theorem State.respond_freeCount (st : Status) (d : Word) (s : State) : (s.respond st d).freeCount = s.freeCount := rfl

/-! ### `State.closeCall` -/

@[simp] theorem State.closeCall_r (s : State) : s.closeCall.r = Config.freeWord s.freeCount := rfl
@[simp] theorem State.closeCall_co (s : State) : s.closeCall.co = false := rfl
@[simp] theorem State.closeCall_t (s : State) : s.closeCall.t = s.t := rfl
@[simp] theorem State.closeCall_tv (s : State) : s.closeCall.tv = s.tv := rfl
@[simp] theorem State.closeCall_fault (s : State) : s.closeCall.fault = s.fault := rfl
@[simp] theorem State.closeCall_cause (s : State) : s.closeCall.cause = s.cause := rfl
@[simp] theorem State.closeCall_ops (s : State) : s.closeCall.ops = s.ops := rfl
@[simp] theorem State.closeCall_budget (s : State) : s.closeCall.budget = s.budget := rfl
@[simp] theorem State.closeCall_inputs (s : State) : s.closeCall.inputs = s.inputs := rfl
@[simp] theorem State.closeCall_responses (s : State) : s.closeCall.responses = s.responses := rfl
@[simp] theorem State.closeCall_freeCount (s : State) : s.closeCall.freeCount = s.freeCount + 1 := rfl

/-! ### `State.openCall` -/

@[simp] theorem State.openCall_r (s : State) : s.openCall.r = Config.RINIT := rfl
@[simp] theorem State.openCall_co (s : State) : s.openCall.co = true := rfl
@[simp] theorem State.openCall_t (s : State) : s.openCall.t = s.t := rfl
@[simp] theorem State.openCall_tv (s : State) : s.openCall.tv = s.tv := rfl
@[simp] theorem State.openCall_fault (s : State) : s.openCall.fault = s.fault := rfl
@[simp] theorem State.openCall_cause (s : State) : s.openCall.cause = s.cause := rfl
@[simp] theorem State.openCall_ops (s : State) : s.openCall.ops = s.ops := rfl
@[simp] theorem State.openCall_budget (s : State) : s.openCall.budget = s.budget := rfl
@[simp] theorem State.openCall_inputs (s : State) : s.openCall.inputs = s.inputs := rfl
@[simp] theorem State.openCall_responses (s : State) : s.openCall.responses = s.responses := rfl
@[simp] theorem State.openCall_freeCount (s : State) : s.openCall.freeCount = s.freeCount := rfl

/-! ### `State.raise` -/

@[simp] theorem State.raise_r (c : Cause) (s : State) : (s.raise c).r = Config.freeWord s.freeCount := rfl
@[simp] theorem State.raise_co (c : Cause) (s : State) : (s.raise c).co = false := rfl
@[simp] theorem State.raise_t (c : Cause) (s : State) : (s.raise c).t = s.t := rfl
@[simp] theorem State.raise_tv (c : Cause) (s : State) : (s.raise c).tv = s.tv := rfl
@[simp] theorem State.raise_fault (c : Cause) (s : State) : (s.raise c).fault = true := rfl
@[simp] theorem State.raise_cause (c : Cause) (s : State) : (s.raise c).cause = c.code := rfl
@[simp] theorem State.raise_ops (c : Cause) (s : State) : (s.raise c).ops = s.ops := rfl
@[simp] theorem State.raise_budget (c : Cause) (s : State) : (s.raise c).budget = s.budget := rfl
@[simp] theorem State.raise_inputs (c : Cause) (s : State) : (s.raise c).inputs = s.inputs := rfl
@[simp] theorem State.raise_responses (c : Cause) (s : State) : (s.raise c).responses = s.responses ++ [⟨c.code, 0⟩] := rfl
@[simp] theorem State.raise_freeCount (c : Cause) (s : State) : (s.raise c).freeCount = s.freeCount + 1 := rfl

/-! ### `State.complete` -/

@[simp] theorem State.complete_r (d : Word) (s : State) : (s.complete d).r = s.r := rfl
@[simp] theorem State.complete_co (d : Word) (s : State) : (s.complete d).co = s.co := rfl
@[simp] theorem State.complete_t (d : Word) (s : State) : (s.complete d).t = s.t := rfl
@[simp] theorem State.complete_tv (d : Word) (s : State) : (s.complete d).tv = s.tv := rfl
@[simp] theorem State.complete_fault (d : Word) (s : State) : (s.complete d).fault = s.fault := rfl
@[simp] theorem State.complete_cause (d : Word) (s : State) : (s.complete d).cause = s.cause := rfl
@[simp] theorem State.complete_ops (d : Word) (s : State) : (s.complete d).ops = s.ops + 1 := rfl
@[simp] theorem State.complete_budget (d : Word) (s : State) : (s.complete d).budget = s.budget := rfl
@[simp] theorem State.complete_inputs (d : Word) (s : State) : (s.complete d).inputs = s.inputs := rfl
@[simp] theorem State.complete_responses (d : Word) (s : State) : (s.complete d).responses = s.responses ++ [⟨okStatus, d⟩] := rfl
@[simp] theorem State.complete_freeCount (d : Word) (s : State) : (s.complete d).freeCount = s.freeCount := rfl

/-! ### `genTable` -/

@[simp] theorem genTable_r (s : State) : (genTable s).r = s.r := rfl
@[simp] theorem genTable_co (s : State) : (genTable s).co = s.co := rfl
@[simp] theorem genTable_t (s : State) : (genTable s).t = s.t.fill tableEntry Config.NENT := rfl
@[simp] theorem genTable_tv (s : State) : (genTable s).tv = true := rfl
@[simp] theorem genTable_fault (s : State) : (genTable s).fault = s.fault := rfl
@[simp] theorem genTable_cause (s : State) : (genTable s).cause = s.cause := rfl
@[simp] theorem genTable_ops (s : State) : (genTable s).ops = s.ops := rfl
@[simp] theorem genTable_budget (s : State) : (genTable s).budget = s.budget := rfl
@[simp] theorem genTable_inputs (s : State) : (genTable s).inputs = s.inputs := rfl
@[simp] theorem genTable_responses (s : State) : (genTable s).responses = s.responses := rfl
@[simp] theorem genTable_freeCount (s : State) : (genTable s).freeCount = s.freeCount := rfl

/-! ### `foldByte` -/

@[simp] theorem foldByte_r (b : Byte) (s : State) : (foldByte b s).r = updateWith s.t.read s.r b := rfl
@[simp] theorem foldByte_co (b : Byte) (s : State) : (foldByte b s).co = s.co := rfl
@[simp] theorem foldByte_t (b : Byte) (s : State) : (foldByte b s).t = s.t := rfl
@[simp] theorem foldByte_tv (b : Byte) (s : State) : (foldByte b s).tv = s.tv := rfl
@[simp] theorem foldByte_fault (b : Byte) (s : State) : (foldByte b s).fault = s.fault := rfl
@[simp] theorem foldByte_cause (b : Byte) (s : State) : (foldByte b s).cause = s.cause := rfl
@[simp] theorem foldByte_ops (b : Byte) (s : State) : (foldByte b s).ops = s.ops := rfl
@[simp] theorem foldByte_budget (b : Byte) (s : State) : (foldByte b s).budget = s.budget := rfl
@[simp] theorem foldByte_inputs (b : Byte) (s : State) : (foldByte b s).inputs = s.inputs := rfl
@[simp] theorem foldByte_responses (b : Byte) (s : State) : (foldByte b s).responses = s.responses := rfl
@[simp] theorem foldByte_freeCount (b : Byte) (s : State) : (foldByte b s).freeCount = s.freeCount := rfl

/-! ### `State.applyReset` -/

@[simp] theorem State.applyReset_r (s : State) : s.applyReset.r = 0 := rfl
@[simp] theorem State.applyReset_co (s : State) : s.applyReset.co = false := rfl
@[simp] theorem State.applyReset_t (s : State) : s.applyReset.t = [] := rfl
@[simp] theorem State.applyReset_tv (s : State) : s.applyReset.tv = false := rfl
@[simp] theorem State.applyReset_fault (s : State) : s.applyReset.fault = false := rfl
@[simp] theorem State.applyReset_cause (s : State) : s.applyReset.cause = 0 := rfl
@[simp] theorem State.applyReset_ops (s : State) : s.applyReset.ops = 0 := rfl
@[simp] theorem State.applyReset_budget (s : State) : s.applyReset.budget = s.budget := rfl
@[simp] theorem State.applyReset_inputs (s : State) : s.applyReset.inputs = s.inputs := rfl
@[simp] theorem State.applyReset_responses (s : State) : s.applyReset.responses = s.responses := rfl
@[simp] theorem State.applyReset_freeCount (s : State) : s.applyReset.freeCount = s.freeCount := rfl

/-! ### `State.taken` -/

@[simp] theorem State.taken_r (s : State) (rest : List HostMove) : (s.taken rest).r = s.r := rfl
@[simp] theorem State.taken_co (s : State) (rest : List HostMove) : (s.taken rest).co = s.co := rfl
@[simp] theorem State.taken_t (s : State) (rest : List HostMove) : (s.taken rest).t = s.t := rfl
@[simp] theorem State.taken_tv (s : State) (rest : List HostMove) : (s.taken rest).tv = s.tv := rfl
@[simp] theorem State.taken_fault (s : State) (rest : List HostMove) : (s.taken rest).fault = s.fault := rfl
@[simp] theorem State.taken_cause (s : State) (rest : List HostMove) : (s.taken rest).cause = s.cause := rfl
@[simp] theorem State.taken_ops (s : State) (rest : List HostMove) : (s.taken rest).ops = s.ops := rfl
@[simp] theorem State.taken_budget (s : State) (rest : List HostMove) : (s.taken rest).budget = s.budget := rfl
@[simp] theorem State.taken_inputs (s : State) (rest : List HostMove) : (s.taken rest).inputs = rest := rfl
@[simp] theorem State.taken_responses (s : State) (rest : List HostMove) : (s.taken rest).responses = s.responses := rfl
@[simp] theorem State.taken_freeCount (s : State) (rest : List HostMove) : (s.taken rest).freeCount = s.freeCount := rfl

/-! ### `State.resetWith` -/

@[simp] theorem State.resetWith_r (b : Option Nat) : (State.resetWith b).r = 0 := rfl
@[simp] theorem State.resetWith_co (b : Option Nat) : (State.resetWith b).co = false := rfl
@[simp] theorem State.resetWith_t (b : Option Nat) : (State.resetWith b).t = [] := rfl
@[simp] theorem State.resetWith_tv (b : Option Nat) : (State.resetWith b).tv = false := rfl
@[simp] theorem State.resetWith_fault (b : Option Nat) : (State.resetWith b).fault = false := rfl
@[simp] theorem State.resetWith_cause (b : Option Nat) : (State.resetWith b).cause = 0 := rfl
@[simp] theorem State.resetWith_ops (b : Option Nat) : (State.resetWith b).ops = 0 := rfl
@[simp] theorem State.resetWith_budget (b : Option Nat) : (State.resetWith b).budget = b := rfl
@[simp] theorem State.resetWith_inputs (b : Option Nat) : (State.resetWith b).inputs = [] := rfl
@[simp] theorem State.resetWith_responses (b : Option Nat) : (State.resetWith b).responses = [] := rfl
@[simp] theorem State.resetWith_freeCount (b : Option Nat) : (State.resetWith b).freeCount = 0 := rfl

end Sys2Proof.Machine
end

