-- ==== Sys2Proof/Laws/Step.lean ====
section
/-! SUPPORT. What the shared operations and the step can do, said once. -/

namespace Sys2Proof.Machine

/-- The budget check, as a fact about numbers (spec/60_exceptions.md R132). -/
theorem budgetExhausted_iff (s : State) : budgetExhausted s = true ↔ ∃ N, s.budget = some N ∧ N ≤ s.ops := by
  unfold budgetExhausted
  cases h : s.budget <;> simp

/-- There is budget for one more command exactly when it is not exhausted. -/
theorem budgetFor_one_iff (s : State) : s.budgetFor 1 ↔ budgetExhausted s = false := by
  rw [← Bool.not_eq_true, budgetExhausted_iff, State.budgetFor]
  constructor
  · rintro h ⟨N, hN, hle⟩
    have := h N hN
    omega
  · intro h N hN
    by_contra hlt
    exact h ⟨N, hN, by omega⟩

/-- Everything the command frame can do (R123 steps 1 and 2). -/
theorem commandFrame_cases (k : State → State) (s : State) :
    (s.fault = true ∧ commandFrame k s = s.respond s.cause 0) ∨
    (s.fault = false ∧ budgetExhausted s = true ∧ commandFrame k s = s.raise .budgetExceeded) ∨
    (s.ready ∧ commandFrame k s = k s) := by
  unfold commandFrame State.ready
  cases s.fault <;> cases budgetExhausted s <;> simp

/-- In a faulted state the frame answers the recorded cause (R125). -/
theorem commandFrame_faulted {s : State} (h : s.fault = true) (k : State → State) :
    commandFrame k s = s.respond s.cause 0 := by
  simp [commandFrame, h]

/-- With the budget exhausted the frame raises `BudgetExceeded` (R132). -/
theorem commandFrame_exhausted {s : State} (h : s.fault = false) (hb : budgetExhausted s = true) (k : State → State) :
    commandFrame k s = s.raise .budgetExceeded := by
  simp [commandFrame, h, hb]

/-- In a ready state the frame goes on. -/
theorem commandFrame_ready {s : State} (h : s.ready) (k : State → State) : commandFrame k s = k s := by
  simp [commandFrame, h.1, h.2]

/-- Step 4 of R123. -/
theorem needTable_cases (k : State → State) (s : State) :
    (s.tv = true ∧ needTable k s = k s) ∨ (s.tv = false ∧ needTable k s = s.raise .tableNotReady) := by
  unfold needTable; cases s.tv <;> simp

/-- Step 5 of R123. -/
theorem needCall_cases (k : State → State) (s : State) :
    (s.co = true ∧ needCall k s = k s) ∨ (s.co = false ∧ needCall k s = s.raise .noOpenCall) := by
  unfold needCall; cases s.co <;> simp

/-- With no host move the block waits (spec/30_encoding.md R67). -/
theorem step_idle {s : State} (h : s.inputs = []) : step s = .next s := by
  simp [step, nextInput, h]

/-- A reset move is applied (spec/70_reset_and_hazards.md R140). -/
theorem step_reset {s : State} {rest : List HostMove} (h : s.inputs = .reset :: rest) :
    step s = .next (s.taken rest).applyReset := by
  simp [step, nextInput, h, State.taken]

/-- A word that decodes is executed. -/
theorem step_command {s : State} {cw : CmdWord} {rest : List HostMove} {i : Instr} (h : s.presents cw rest)
    (hd : decode cw = .ok i) : step s = exec i (s.taken rest) := by
  simp only [State.presents] at h
  simp [step, nextInput, h, hd, State.taken]

/-- A word that does not decode is rejected in the command frame. -/
theorem step_illegal {s : State} {cw : CmdWord} {rest : List HostMove} {e : Reject} (h : s.presents cw rest)
    (hd : decode cw = .error e) : step s = .next (rejectWord (s.taken rest)) := by
  simp only [State.presents] at h
  simp [step, nextInput, h, hd, State.taken]

/-- Everything a step can do. -/
theorem step_cases (s : State) :
    (s.inputs = [] ∧ step s = .next s) ∨
    (∃ rest, s.inputs = .reset :: rest ∧ step s = .next (s.taken rest).applyReset) ∨
    (∃ cw rest i, s.presents cw rest ∧ decode cw = .ok i ∧ step s = exec i (s.taken rest)) ∨
    (∃ cw rest e, s.presents cw rest ∧ decode cw = .error e ∧ step s = .next (rejectWord (s.taken rest))) := by
  rcases h : s.inputs with _ | ⟨_ | cw, rest⟩
  · exact .inl ⟨rfl, step_idle h⟩
  · exact .inr (.inl ⟨rest, rfl, step_reset h⟩)
  · rcases hd : decode cw with e | i
    · exact .inr (.inr (.inr ⟨cw, rest, e, h, hd, step_illegal h hd⟩))
    · exact .inr (.inr (.inl ⟨cw, rest, i, h, hd, step_command h hd⟩))

/-- One step and then `n`. -/
theorem runSteps_succ {s s' : State} (n : Nat) (h : step s = .next s') : runSteps (n + 1) s = runSteps n s' := by
  rw [runSteps, h]

/-- `m` steps and then `n`. -/
theorem runSteps_add {m n : Nat} {s s' : State} (h : runSteps m s = .next s') :
    runSteps (m + n) s = runSteps n s' := by
  induction m generalizing s with
  | zero =>
    cases h
    rw [Nat.zero_add]
  | succ m ih =>
    rw [runSteps] at h
    rw [Nat.succ_add_eq_add_succ, Nat.add_succ, runSteps]
    split at h
    · exact ih h
    · cases h
    · cases h

/-- With no host move the block waits for ever. -/
theorem runSteps_idle (n : Nat) {s : State} (h : s.inputs = []) : runSteps n s = .next s := by
  induction n with
  | zero => rfl
  | succ n ih => rw [runSteps_succ n (step_idle h), ih]

/-- One step and then `n` of the host's `Core.run`, for any machine. -/
theorem core_run_next (M : Host.Core) (n : Nat) {s s' : M.State} (h : M.step s = .next s') :
    M.run (n + 1) s = M.run n s' := by
  simp only [Host.Core.run, h]

/-- A machine that stops at once. -/
theorem core_run_fault (M : Host.Core) (n : Nat) {s : M.State} {r : M.Fault} (h : M.step s = .fault r) :
    M.run (n + 1) s = .fault r := by
  simp only [Host.Core.run, h]

/-- A machine that refuses at once. -/
theorem core_run_refused (M : Host.Core) (n : Nat) {s : M.State} {r : M.Refusal} (h : M.step s = .refused r) :
    M.run (n + 1) s = .refused r := by
  simp only [Host.Core.run, h]

/-- Running is the host's own `Core.run` of this machine. -/
theorem runSteps_eq_core_run (n : Nat) (s : State) : runSteps n s = Host.Core.run Sys2Proof.core n s := by
  induction n generalizing s with
  | zero => rfl
  | succ n ih =>
    rw [runSteps]
    cases h : step s with
    | next s' => exact (ih s').trans (core_run_next Sys2Proof.core n h).symm
    | fault r => exact (core_run_fault Sys2Proof.core n h).symm
    | refused r => exact (core_run_refused Sys2Proof.core n h).symm

end Sys2Proof.Machine
end

