-- ==== Sys2Proof/Laws/Exec.lean ====
section
/-! SUPPORT. What a command can do, said once for all five, and what presenting a word can do. -/

namespace Sys2Proof.Machine

/-! ### The fields of a completed command -/

@[simp] theorem completed_responses (i : Instr) (s : State) :
    (completed i s).responses = s.responses ++ [⟨0, responseData i s⟩] := by cases i <;> rfl

@[simp] theorem completed_fault (i : Instr) (s : State) : (completed i s).fault = s.fault := by cases i <;> rfl

@[simp] theorem completed_cause (i : Instr) (s : State) : (completed i s).cause = s.cause := by cases i <;> rfl

@[simp] theorem completed_ops (i : Instr) (s : State) : (completed i s).ops = s.ops + 1 := by cases i <;> rfl

@[simp] theorem completed_inputs (i : Instr) (s : State) : (completed i s).inputs = s.inputs := by cases i <;> rfl

@[simp] theorem completed_budget (i : Instr) (s : State) : (completed i s).budget = s.budget := by cases i <;> rfl

@[simp] theorem responseData_taken (i : Instr) (s : State) (rest : List HostMove) :
    responseData i (s.taken rest) = responseData i s := by cases i <;> rfl

/-! ### A command -/

/-- Everything a command can do: the common checks, the checks of its own, and its completion (R123). -/
theorem exec_cases (i : Instr) (s : State) :
    (s.fault = true ∧ exec i s = .next (s.respond s.cause 0)) ∨
    (s.fault = false ∧ budgetExhausted s = true ∧ exec i s = .next (s.raise .budgetExceeded)) ∨
    (s.ready ∧ needsTable i = true ∧ s.tv = false ∧ exec i s = .next (s.raise .tableNotReady)) ∨
    (s.ready ∧ (needsTable i = true → s.tv = true) ∧ needsCall i = true ∧ s.co = false ∧
      exec i s = .next (s.raise .noOpenCall)) ∨
    (s.ready ∧ (needsTable i = true → s.tv = true) ∧ (needsCall i = true → s.co = true) ∧
      exec i s = .next (completed i s)) := by
  cases i <;>
    simp only [exec, execTgen, execTrd, execInit, execUpd, execFin, commandFrame, needTable, needCall, needsTable,
      needsCall, State.ready] <;>
    cases s.fault <;> cases budgetExhausted s <;> cases s.tv <;> cases s.co <;> simp [completed, trdIndex]

/-- A ready command whose needs are met completes. -/
theorem exec_completes {i : Instr} {s : State} (h : s.ready) (ht : needsTable i = true → s.tv = true)
    (hc : needsCall i = true → s.co = true) : exec i s = .next (completed i s) := by
  rcases exec_cases i s with ⟨h', _⟩ | ⟨_, h', _⟩ | ⟨_, h1, h2, _⟩ | ⟨_, _, h1, h2, _⟩ | ⟨_, _, _, h'⟩
  · exact absurd h' (by simp [h.1])
  · exact absurd h' (by simp [h.2])
  · exact absurd (ht h1) (by simp [h2])
  · exact absurd (hc h1) (by simp [h2])
  · exact h'

/-- A ready command that needs a table and has none raises `TableNotReady`. -/
theorem exec_tableNotReady {i : Instr} {s : State} (h : s.ready) (hn : needsTable i = true) (ht : s.tv = false) :
    exec i s = .next (s.raise .tableNotReady) := by
  rcases exec_cases i s with ⟨h', _⟩ | ⟨_, h', _⟩ | ⟨_, _, _, h'⟩ | ⟨_, h1, _⟩ | ⟨_, h1, _⟩
  · exact absurd h' (by simp [h.1])
  · exact absurd h' (by simp [h.2])
  · exact h'
  · exact absurd (h1 hn) (by simp [ht])
  · exact absurd (h1 hn) (by simp [ht])

/-- A ready command whose table is there, that needs an open call and has none, raises `NoOpenCall`. -/
theorem exec_noOpenCall {i : Instr} {s : State} (h : s.ready) (ht : needsTable i = true → s.tv = true)
    (hn : needsCall i = true) (hc : s.co = false) : exec i s = .next (s.raise .noOpenCall) := by
  rcases exec_cases i s with ⟨h', _⟩ | ⟨_, h', _⟩ | ⟨_, h1, h2, _⟩ | ⟨_, _, _, _, h'⟩ | ⟨_, _, h1, _⟩
  · exact absurd h' (by simp [h.1])
  · exact absurd h' (by simp [h.2])
  · exact absurd (ht h1) (by simp [h2])
  · exact h'
  · exact absurd (h1 hn) (by simp [hc])

/-! ### A presented word -/

/-- Everything presenting a word can do: it is answered with the recorded cause, it raises a fault (`BudgetExceeded`
exactly when the budget is exhausted), or its command completes. -/
theorem presents_cases {s : State} {cw : CmdWord} {rest : List HostMove} (h : s.presents cw rest) :
    (s.fault = true ∧ step s = .next ((s.taken rest).respond s.cause 0)) ∨
    (∃ c, s.fault = false ∧ (c = .budgetExceeded ↔ budgetExhausted s = true) ∧
      step s = .next ((s.taken rest).raise c)) ∨
    (∃ i, s.ready ∧ decode cw = .ok i ∧ (needsTable i = true → s.tv = true) ∧ (needsCall i = true → s.co = true) ∧
      step s = .next (completed i (s.taken rest))) := by
  have other : ∀ c : Cause, c ≠ .budgetExceeded → s.ready → (c = .budgetExceeded ↔ budgetExhausted s = true) :=
    fun c hc hr => ⟨fun e => absurd e hc, fun e => absurd e (by simp [hr.2])⟩
  rcases hd : decode cw with e | i
  · rw [step_illegal h hd]
    rcases commandFrame_cases (State.raise .illegalCommand) (s.taken rest) with ⟨h1, h2⟩ | ⟨h1, h2, h3⟩ | ⟨h1, h2⟩
    · exact .inl ⟨h1, congrArg _ h2⟩
    · exact .inr (.inl ⟨_, h1, ⟨fun _ => h2, fun _ => rfl⟩, congrArg _ h3⟩)
    · exact .inr (.inl ⟨_, h1.1, other _ (by decide) h1, congrArg _ h2⟩)
  · rw [step_command h hd]
    rcases exec_cases i (s.taken rest) with ⟨h1, h2⟩ | ⟨h1, h2, h3⟩ | ⟨h1, _, _, h2⟩ | ⟨h1, _, _, _, h2⟩ | ⟨h1, h2, h3, h4⟩
    · exact .inl ⟨h1, h2⟩
    · exact .inr (.inl ⟨_, h1, ⟨fun _ => h2, fun _ => rfl⟩, h3⟩)
    · exact .inr (.inl ⟨_, h1.1, other _ (by decide) h1, h2⟩)
    · exact .inr (.inl ⟨_, h1.1, other _ (by decide) h1, h2⟩)
    · exact .inr (.inr ⟨i, h1, rfl, h2, h3, h4⟩)

end Sys2Proof.Machine
end

