-- ==== Sys2Proof/Laws/PerInstr.lean ====
section
/-! SUPPORT. The per-instruction laws named in LAWS.json: statements about every command as syntax. -/

namespace Sys2Proof.Laws

/-- The command is well formed, its word matches a row of the opcode map (spec/30_encoding.md R63), and the word's two
fields are the row's opcode and the command's argument (R61). -/
def EncodesLegalWord.Statement (i : Instr) : Prop :=
  i.wf = true ∧ legalWord (encode i) = true ∧ cmdOp (encode i) = opcode i ∧ cmdArg (encode i) = argument i

/-- The high field of `a ++ b` is `a` (R61). -/
theorem cmdOp_append (a b : Byte) : cmdOp (a ++ b) = a := by
  apply BitVec.eq_of_toNat_eq
  simp only [cmdOp, BitVec.extractLsb'_toNat, BitVec.toNat_append, ← Nat.shiftLeft_add_eq_or_of_lt b.isLt]
  omega

/-- The low field of `a ++ b` is `b` (R61). -/
theorem cmdArg_append (a b : Byte) : cmdArg (a ++ b) = b := by
  apply BitVec.eq_of_toNat_eq
  simp only [cmdArg, BitVec.extractLsb'_toNat, BitVec.toNat_append, ← Nat.shiftLeft_add_eq_or_of_lt b.isLt]
  omega

theorem EncodesLegalWord.tgen : Statement .tgen := ⟨rfl, rfl, rfl, rfl⟩
theorem EncodesLegalWord.init : Statement .init := ⟨rfl, rfl, rfl, rfl⟩
theorem EncodesLegalWord.fin : Statement .fin := ⟨rfl, rfl, rfl, rfl⟩

theorem EncodesLegalWord.trd (i : Byte) : Statement (.trd i) := by
  refine ⟨?_, ?_, cmdOp_append _ _, cmdArg_append _ _⟩
  · simpa [Instr.wf] using Nat.le_of_lt_succ i.isLt
  · revert i; decide +kernel

theorem EncodesLegalWord.upd (b : Byte) : Statement (.upd b) := by
  refine ⟨?_, ?_, cmdOp_append _ _, cmdArg_append _ _⟩
  · simpa [Instr.wf] using Nat.le_of_lt_succ b.isLt
  · revert b; decide +kernel

end Sys2Proof.Laws
end

