-- ==== Sys2Proof/Tests/Slice0.lean ====
section
/-! SUPPORT. Tests whose expected results stand in the spec (spec/95_test_vectors.md V1 to V15, P1 to P10, and the rules'
own examples), smoke tests of well-formedness, and for every statement with hypotheses a witness that meets them. -/

namespace Sys2Proof.Tests

open Sys2Proof.Machine

/-! ### States -/

/-- The state an outcome of the machine leads to. -/
def after (o : Host.Outcome State Fault Refusal) : State :=
  match o with
  | .next s => s
  | .fault _ => State.reset
  | .refused _ => State.reset

/-- Reset and then `TGEN` done, nothing else (`TV = 1`, `CO = 0`). -/
def tabled : State := { State.reset with t := Memory.fill tableEntry Config.NENT [], tv := true }

/-- A call open over the table, with the register given (`TV = 1`, `CO = 1`). -/
def opened (r : Word) : State := { tabled with co := true, r := r }

/-- A call just opened before the table exists (`TV = 0`, `CO = 1`). -/
def untabled : State := { State.reset with co := true, r := 0xFFFFFFFF }

/-- The faulted state after `TableNotReady` (V15, last two rows). -/
def faulted : State := { State.reset with fault := true, cause := 2 }

/-- The host presents the word. -/
def given (s : State) (cw : CmdWord) : State := { s with inputs := [.command cw] }

/-! ### Well-formedness: each check refuses an ill-formed term -/

/-- R64: an unused opcode; an `arg` that must be zero. -/
theorem test_legalWord_refuses : legalWord 0x0500 = false ∧ legalWord 0x0001 = false ∧ legalWord 0x0201 = false ∧
    legalWord 0x0480 = false ∧ legalWord 0x0000 = true := by decide

/-- R68: operands outside 0 to 255. -/
theorem test_operands_refused : (AsmStmt.trd 256).wf = false ∧ (AsmStmt.upd 256).wf = false ∧
    (AsmStmt.crc32 [1, 256]).wf = false ∧ (AsmStmt.trd 255).wf = true := by decide

/-- R69: characters outside 0x20 to 0x7E, and the double quote. -/
theorem test_text_refused : (AsmStmt.crc32Text ['\t']).wf = false ∧ (AsmStmt.crc32Text ['é']).wf = false ∧
    (AsmStmt.crc32Text ['"']).wf = false ∧ (AsmStmt.crc32Text [' ', '~']).wf = true := by decide

/-- R63: "The five rows are disjoint": two rows that cover one word are one row. -/
theorem test_rows_disjoint :
    opcodeRows.Pairwise fun p q => (p.bits ^^^ q.bits) &&& p.mask &&& q.mask ≠ 0 := by decide

/-! ### Decoding (V14; words written bit by bit from R63) -/

theorem test_decode_generator : decode 0b0000000000000000 = .ok .tgen ∧ decode 0b0000000111111111 = .ok (.trd 255) ∧
    decode 0b0000000100000000 = .ok (.trd 0) := by decide

theorem test_decode_engine : decode 0b0000001000000000 = .ok .init ∧ decode 0b0000001101100001 = .ok (.upd 0x61) ∧
    decode 0b0000010000000000 = .ok .fin := by decide

theorem test_decode_illegal : decode 0x0201 = .error .nonZeroArg ∧ decode 0x0561 = .error .reservedOpcode ∧
    decode 0x8000 = .error .reservedOpcode := by decide

theorem test_decodeTableWord : decodeTableWord 16 0x0361 = some (.upd 0x61) ∧ decodeTableWord 16 0x8000 = none := by
  decide

/-! ### Assembler (R68, R69, R70) -/

theorem test_assemble_operands :
    assembleLine ['U', 'P', 'D', ' ', '0', 'x', '4', '1', ' ', ';', ' ', 'A'] = some [0x0341] ∧
    assembleLine ['U', 'P', 'D', ' ', '6', '5'] = some [0x0341] ∧
    assembleLine ['T', 'R', 'D', ' ', '2', '5', '6'] = none ∧ assembleLine ['t', 'g', 'e', 'n'] = none := by decide +kernel

/-- R70: one spelling in each radix and one layout, so leading zeros, lower-case digits, one digit and spare blanks are
refused. -/
theorem test_assemble_one_spelling : assembleLine ['T', 'R', 'D', ' ', '0', '0', '7'] = none ∧
    assembleLine ['U', 'P', 'D', ' ', '0', 'x', '0', 'a'] = none ∧
    assembleLine ['U', 'P', 'D', ' ', '0', 'x', 'A'] = none ∧
    assembleLine ['U', 'P', 'D', ' ', ' ', '7'] = none ∧ assembleLine ['F', 'I', 'N', ' '] = none ∧
    assembleLine ['U', 'P', 'D', ' ', '0', 'x', '0', 'A'] = some [0x030A] := by decide +kernel

/-- P3's `CRC32 1, 2, 3`, P2's `CRC32` and a text with a `;` in it. -/
theorem test_assemble_crc32 :
    assembleLine ['C', 'R', 'C', '3', '2', ' ', '1', ',', ' ', '2', ',', ' ', '3'] =
      some [0x0200, 0x0301, 0x0302, 0x0303, 0x0400] ∧
    assembleLine ['C', 'R', 'C', '3', '2'] = some [0x0200, 0x0400] ∧
    assembleLine ['C', 'R', 'C', '3', '2', ' ', '"', 'a', ';', '"'] = some [0x0200, 0x0361, 0x033B, 0x0400] := by
  decide +kernel

/-- A source text, one command per line, with a comment line. -/
theorem test_assemble_text : assemble [['T', 'G', 'E', 'N'], [';', 'x'], ['T', 'R', 'D', ' ', '0', 'x', 'F', 'F']] =
    some [0x0000, 0x01FF] := by decide +kernel

theorem test_disassemble : disassemble 0x0361 = ['U', 'P', 'D', ' ', '0', 'x', '6', '1'] ∧
    disassemble 0x00FF = ['I', 'L', 'L', 'E', 'G', 'A', 'L', ' ', '0', 'x', '0', '0', 'F', 'F'] := by decide

/-! ### Functions (V8, V10, V11) -/

theorem test_bitstep : bitstep 0x80000001 = 0xADB88320 ∧ bitstep 0x000000FF = 0xEDB8835F ∧
    bitstep 0xFFFFFFFE = 0x7FFFFFFF := by decide

theorem test_tableEntry : tableEntry 0x9E = 0x17B7BE43 ∧ tableEntry 0xFE = 0x5A05DF1B ∧ tableEntry 0x03 = 0x990951BA := by
  decide

theorem test_update : update 0x12345678 0x78 = 0x00123456 ∧ update 0x174841BC 0x62 = 0x617CB792 ∧
    update 0x80000000 0x00 = 0x00800000 := by decide

/-- V12 and V11e. -/
theorem test_crc32 : crc32 [0x31, 0x32, 0x33, 0x34, 0x35, 0x36, 0x37, 0x38, 0x39] = 0xCBF43926 ∧
    crc32 [0x61, 0x62, 0x63] = 0x352441C2 := by decide +kernel

/-! ### The table store -/

theorem test_memory_canonical : Memory.write (Memory.write (Memory.write [] 5 1) 3 2) 5 0 = [(3, 2)] ∧
    Memory.wf [(3, 2), (5, 1)] = true ∧ Memory.wf [(5, 1), (3, 2)] = false ∧ Memory.wf [(3, 0)] = false ∧
    Memory.wf [(256, 1)] = false := by decide

/-! ### One step of each command (P1, P3, P6, P8) -/

theorem test_tgen : (after (exec .tgen State.reset)).t.read 255 = 0x2D02EF8D ∧ (after (exec .tgen State.reset)).tv = true ∧
    (after (exec .tgen State.reset)).responses = [⟨0, 0⟩] := by decide +kernel

/-- P8 row 4: `TGEN` inside a call leaves the register. -/
theorem test_tgen_in_call : (after (exec .tgen (opened 0x7C231048))).r = 0x7C231048 ∧
    (after (exec .tgen (opened 0x7C231048))).co = true ∧ (after (exec .tgen (opened 0x7C231048))).t = tabled.t := by
  decide +kernel

theorem test_trd : (after (exec (.trd 0x80) tabled)).responses = [⟨0, 0xEDB88320⟩] ∧
    (after (exec (.trd 0x80) tabled)).ops = 1 := by decide +kernel

theorem test_trd_without_table : (after (exec (.trd 1) State.reset)).responses = [⟨2, 0⟩] ∧
    (after (exec (.trd 1) State.reset)).fault = true ∧ (after (exec (.trd 1) State.reset)).ops = 0 := by decide

/-- P8 row 6: `INIT` restarts an open call. -/
theorem test_init_restarts : (after (exec .init (opened 0x7C231048))).r = 0xFFFFFFFF ∧
    (after (exec .init (opened 0x7C231048))).co = true := by decide +kernel

/-- P3 row 4. -/
theorem test_upd : (after (exec (.upd 0x02) (opened 0x5AFA20E4))).r = 0x4933BD6D := by decide +kernel

/-- V15 row 1: both checks fail, the table decides. -/
theorem test_upd_priority : (after (exec (.upd 0x61) State.reset)).cause = 2 ∧
    (after (exec (.upd 0x61) tabled)).cause = 3 := by decide +kernel

/-- P6 row 4. -/
theorem test_fin : (after (exec .fin (opened 0x174841BC))).responses = [⟨0, 0xE8B7BE43⟩] ∧
    (after (exec .fin (opened 0x174841BC))).co = false := by decide +kernel

/-- V15 row 3: `FIN` needs no table. -/
theorem test_fin_without_table : (after (exec .fin untabled)).responses = [⟨0, 0⟩] ∧
    (after (exec .fin untabled)).fault = false := by decide

/-! ### The command frame, reset (V15, P7, P9) -/

theorem test_illegal : (after (step (given State.reset 0x0401))).cause = 1 ∧
    (after (step (given State.reset 0x0401))).responses = [⟨1, 0⟩] := by decide

theorem test_budget_before_decode :
    (after (step (given (State.resetWith (some 0)) 0x0500))).responses = [⟨4, 0⟩] ∧
    (after (step (given { opened 0x174841BC with budget := some 5, ops := 5 } 0x0400))).responses = [⟨4, 0⟩] ∧
    (after (step (given { opened 0x174841BC with budget := some 5, ops := 4 } 0x0400))).responses =
      [⟨0, 0xE8B7BE43⟩] := by decide +kernel

theorem test_sticky_cause : (after (step (given faulted 0xFFFF))).responses = [⟨2, 0⟩] ∧
    (after (step (given faulted 0x0000))).tv = false ∧ (after (step (given faulted 0x0000))).cause = 2 := by decide

theorem test_reset_clears_fault : (after (step { faulted with inputs := [.reset] })) = State.reset := by decide

theorem test_withFetchWord : (after (step (State.reset.withFetchWord 16 0x0200))).co = true := by decide

/-! ### Witnesses: states that meet the hypotheses of the statements -/

/-- `tabled` and every state that differs from it in an open call's register satisfy the invariant. -/
theorem tabled_inv : tabled.Inv where
  canonical := Memory.wf_fill rfl _ _
  tableRight := fun _ => Memory.read_fill_all rfl _
  noCause := fun _ => rfl
  causeUsed := fun h => (by cases h)
  faultCloses := fun h => (by cases h)
  withinBudget := fun N _ => Nat.zero_le N
  freshCall := fun h => (by cases h)

theorem opened_inv (r : Word) : (opened r).Inv where
  canonical := tabled_inv.canonical
  tableRight := tabled_inv.tableRight
  noCause := fun _ => rfl
  causeUsed := fun h => (by cases h)
  faultCloses := fun h => (by cases h)
  withinBudget := fun N _ => Nat.zero_le N
  freshCall := fun h => (by cases h)

theorem untabled_inv : untabled.Inv where
  canonical := rfl
  tableRight := fun h => (by cases h)
  noCause := fun _ => rfl
  causeUsed := fun h => (by cases h)
  faultCloses := fun h => (by cases h)
  withinBudget := fun N _ => Nat.zero_le N
  freshCall := fun _ _ => rfl

theorem faulted_inv : faulted.Inv where
  canonical := rfl
  tableRight := fun h => (by cases h)
  noCause := fun h => (by cases h)
  causeUsed := fun _ => ⟨.tableNotReady, rfl⟩
  faultCloses := fun _ => rfl
  withinBudget := fun N _ => Nat.zero_le N
  freshCall := fun _ h => (by cases h)

/-- The host's lists do not matter to the invariant. -/
theorem inv_inputs {s : State} (h : s.Inv) (ms : List HostMove) : ({ s with inputs := ms } : State).Inv :=
  ⟨h.1, h.2, h.3, h.4, h.5, h.6, h.7⟩

/-- DecodeEncodeAgree, at the largest operands. -/
theorem witness_DecodeEncodeAgree : (Instr.trd 0xFF).wf = true ∧ decode 0x03FF = .ok (.upd 0xFF) := by decide

/-- IllegalWordsRaiseIllegalCommand, at the first unused opcode and at the least non-zero argument. -/
theorem witness_IllegalWords : State.ready (given tabled 0x0500) ∧ (given tabled 0x0500).presents 0x0500 [] ∧
    decode 0x0500 = .error .reservedOpcode ∧ (given tabled 0x0001).presents 0x0001 [] ∧
    decode 0x0001 = .error .nonZeroArg := ⟨⟨rfl, rfl⟩, rfl, by decide, rfl, by decide⟩

/-- AssemblingDisassembledTextGivesTheWord: both clauses. -/
theorem witness_Assembling : legalWord 0x04FF = false ∧ legalWord 0x03FF = true ∧ legalWord 0x0400 = true := by decide

/-- LineOfAWordIsItsPrintedOrDecimalForm: a printed and a decimal line of one word, and a line without operand. -/
theorem witness_LineOfAWord : assembleLine ['U', 'P', 'D', ' ', '0', 'x', 'F', 'F'] = some [0x03FF] ∧
    assembleLine ['U', 'P', 'D', ' ', '2', '5', '5', ';'] = some [0x03FF] ∧
    assembleLine ['F', 'I', 'N'] = some [0x0400] := by decide +kernel

/-- PseudoInstructionExpands, second clause, at the least operand out of range. -/
theorem witness_PseudoInstruction : ∃ n ∈ [0, 256], 255 < n := ⟨256, by decide⟩

/-- PseudoInstructionExpands, third clause, at the first and the last character allowed. -/
theorem witness_PseudoText : ∀ c ∈ [' ', '!', '#', '~'], 0x20 ≤ c.toNat ∧ c.toNat ≤ 0x7E ∧ c ≠ '"' := by simp

/-- PseudoInstructionExpands, fourth clause: the last code below the range, the first above it, the double quote. -/
theorem witness_PseudoTextRefused : ∀ c ∈ ['\x1F', '\x7F', '"'], c.toNat < 0x20 ∨ 0x7E < c.toNat ∨ c = '"' := by simp

/-- StepRunsTheDecodedCommand: both clauses. -/
theorem witness_StepRuns : (given State.reset 0x01FF).presents 0x01FF [] ∧ decode 0x01FF = .ok (.trd 0xFF) ∧
    decodeTableWord 16 0x01FF = some (.trd 0xFF) := ⟨rfl, by decide, by decide⟩

/-- BlockWaitsWithoutACommand. -/
theorem witness_BlockWaits : State.reset.inputs = [] := rfl

/-- EveryCommandGetsOneResponse, in a state where the command completes and in a faulted one. -/
theorem witness_OneResponse : (given tabled 0x01FF).Inv ∧ (given tabled 0x01FF).presents 0x01FF [] ∧
    (given faulted 0x01FF).Inv ∧ (given faulted 0x01FF).presents 0x01FF [] :=
  ⟨inv_inputs tabled_inv _, rfl, inv_inputs faulted_inv _, rfl⟩

/-- FirstFailingCheckDecides: one state per clause, in the order of the clauses; the budget clause at `OPS = BUDGET`. -/
theorem witness_FirstFailing :
    ((given faulted 0xFFFF).presents 0xFFFF [] ∧ (given faulted 0xFFFF).fault = true) ∧
    ((given (State.resetWith (some 0)) 0x0500).presents 0x0500 [] ∧
      (State.resetWith (some 0)).budget = some 0 ∧ 0 ≤ (State.resetWith (some 0)).ops) ∧
    (State.ready (given State.reset 0x0401) ∧ decode 0x0401 = .error .nonZeroArg) ∧
    (State.ready (given State.reset 0x0300) ∧ decode 0x0300 = .ok (.upd 0) ∧ needsTable (.upd 0) = true ∧
      (given State.reset 0x0300).tv = false) ∧
    (State.ready (given State.reset 0x0400) ∧ decode 0x0400 = .ok .fin ∧ (needsTable .fin = true → State.reset.tv = true) ∧
      needsCall .fin = true ∧ (given State.reset 0x0400).co = false) ∧
    (State.ready (given (opened 1) 0x03FF) ∧ decode 0x03FF = .ok (.upd 0xFF) ∧ (opened 1).tv = true ∧
      (opened 1).co = true) :=
  ⟨⟨rfl, rfl⟩, ⟨rfl, rfl, Nat.le_refl _⟩, ⟨⟨rfl, rfl⟩, by decide⟩, ⟨⟨rfl, rfl⟩, by decide, rfl, rfl⟩,
    ⟨⟨rfl, rfl⟩, by decide, by decide, rfl, rfl⟩, ⟨⟨rfl, rfl⟩, by decide, rfl, rfl⟩⟩

/-- FaultEntryDoesExactlyThis, last clause: a step that faults. -/
theorem witness_FaultEntry : (given State.reset 0x0400).fault = false ∧
    ∃ s', step (given State.reset 0x0400) = .next s' ∧ s'.fault = true := ⟨rfl, _, rfl, rfl⟩

/-- FaultEntryDoesExactlyThis: each of the four causes is recorded somewhere (R121's codes). -/
theorem witness_FaultEntryCauses : (after (step (given State.reset 0x0500))).cause = 1 ∧
    (after (step (given State.reset 0x0100))).cause = 2 ∧ (after (step (given State.reset 0x0400))).cause = 3 ∧
    (after (step (given (State.resetWith (some 0)) 0x0200))).cause = 4 := by decide

/-- FaultedBlockOnlyAnswersItsCause, for two words. -/
theorem witness_FaultedBlock :
    ∃ s : State, s.inputs = [.command 0x0000, .command 0xFFFF] ∧ s.fault = true ∧
      ∀ m ∈ s.inputs.take 2, m ≠ .reset :=
  ⟨{ faulted with inputs := [.command 0x0000, .command 0xFFFF] }, rfl, rfl, by decide⟩

/-- BudgetExceededExactlyAtTheCeiling: at the ceiling, one below it, and without one. -/
theorem witness_BudgetExceeded :
    (∃ N, (given (State.resetWith (some 0)) 0).budget = some N ∧ N ≤ (given (State.resetWith (some 0)) 0).ops) ∧
    ¬ (∃ N, (given (State.resetWith (some 1)) 0).budget = some N ∧ N ≤ (given (State.resetWith (some 1)) 0).ops) ∧
    ¬ (∃ N, (given State.reset 0).budget = some N ∧ N ≤ (given State.reset 0).ops) :=
  ⟨⟨0, rfl, Nat.le_refl _⟩, (by rintro ⟨N, h, hN⟩; cases h; cases hN), (by rintro ⟨N, h, _⟩; cases h)⟩

/-- CommonChecks: a faulted state, and one whose budget is just exhausted. -/
theorem witness_CommonChecks : faulted.fault = true ∧ (State.resetWith (some 0)).fault = false ∧
    (State.resetWith (some 0)).budget = some 0 ∧ 0 ≤ (State.resetWith (some 0)).ops := ⟨rfl, rfl, rfl, Nat.le_refl _⟩

/-- The commands' statements: a ready state of each `(TV, CO)`, with the invariant, one with `OPS` just below `BUDGET`. -/
theorem witness_commands : State.reset.ready ∧ State.reset.Inv ∧ untabled.ready ∧ untabled.Inv ∧ tabled.ready ∧
    tabled.Inv ∧ (opened 0x174841BC).ready ∧ (opened 0x174841BC).Inv ∧ (State.resetWith (some 1)).ready ∧
    (0xFF : Byte) ≠ 0 :=
  ⟨⟨rfl, rfl⟩, ⟨rfl, fun h => (by cases h), fun _ => rfl, fun h => (by cases h), fun h => (by cases h),
    fun N _ => Nat.zero_le N, fun _ h => (by cases h)⟩, ⟨rfl, rfl⟩, untabled_inv, ⟨rfl, rfl⟩, tabled_inv, ⟨rfl, rfl⟩,
    opened_inv _, ⟨rfl, rfl⟩, by decide⟩

/-- FinDeliversTheChecksum, the clauses about two commands, at the exact budget for two. -/
theorem witness_Fin : State.ready { opened 5 with budget := some 2 } ∧ State.budgetFor 2 { opened 5 with budget := some 2 } ∧
    ∃ s', exec .fin { opened 5 with budget := some 2 } = .next s' :=
  ⟨⟨rfl, rfl⟩, fun N h => (by cases h; exact Nat.le_refl _), _, rfl⟩

/-- OnlyTgenWritesTheTable and RegisterWrittenOnlyByInitAndUpd: a command other than `TGEN` with a next state, its call
open afterwards; one witness for each way the register is said to be. -/
theorem witness_frames : Instr.fin ≠ .tgen ∧ (∃ s', exec .init State.reset = .next s' ∧ s'.co = true) ∧
    (∃ s', exec (.upd 3) (opened 5) = .next s' ∧ s'.co = true) ∧
    ∃ s', exec (.trd 3) (opened 5) = .next s' ∧ s'.co = true :=
  ⟨by decide, ⟨_, rfl, rfl⟩, ⟨_, rfl, rfl⟩, _, rfl, rfl⟩

/-- NoCommandClearsFaultTableOrCount and OpsCountsCompletedCommands. -/
theorem witness_presents : (given faulted 0x0500).presents 0x0500 [] ∧ (given faulted 0x0500).fault = true ∧
    (given tabled 0x0400).presents 0x0400 [] ∧ (given tabled 0x0400).tv = true := ⟨rfl, rfl, rfl, rfl⟩

/-- ResetLeavesTheStatedValues and ResetWorksInAnyState: reset from a faulted state. -/
theorem witness_Reset : (∃ b, State.reset = State.resetWith b) ∧ (∃ u, faulted.applyReset = State.applyReset u) ∧
    ∃ s : State, s.fault = true ∧ s.inputs = .reset :: [] :=
  ⟨⟨none, rfl⟩, ⟨faulted, rfl⟩, { faulted with inputs := [.reset] }, rfl, rfl⟩

/-- EveryStepKeepsTheInvariant. -/
theorem witness_InvStep : (given tabled 0x01FF).Inv ∧ ∃ s', step (given tabled 0x01FF) = .next s' :=
  ⟨inv_inputs tabled_inv _, _, rfl⟩

/-- ReachableTableIsRight: a run that reaches `TV = 1`. -/
theorem witness_Reachable :
    (after (runSteps 1 { State.resetWith (some 1) with inputs := [.command 0x0000] })).tv = true := by decide

/-- BitstepIsOneDivisionStep: bit 0 set and clear. -/
theorem witness_Bitstep : (0xFFFFFFFF : Word).getLsbD 0 = true ∧ (0x80000000 : Word).getLsbD 0 = false := by decide

/-- CallDeliversCrc32OfItsBytes: a call that builds its own table inside, at the exact budget, `TV = 0` before. -/
theorem witness_Call : ∃ s : State, s.Inv ∧ s.fault = false ∧ s.tv = false ∧
    callBody s.tv [.tgen, .upd 0x61, .trd 0xFF] = true ∧ s.budgetFor 5 ∧
    s.inputs = presenting ([.init] ++ [.tgen, .upd 0x61, .trd 0xFF] ++ [.fin]) ++ [.reset] :=
  ⟨{ State.resetWith (some 5) with
      inputs := presenting ([.init] ++ [.tgen, .upd 0x61, .trd 0xFF] ++ [.fin]) ++ [.reset] },
    ⟨rfl, fun h => (by cases h), fun _ => rfl, fun h => (by cases h), fun h => (by cases h),
      fun N _ => Nat.zero_le N, fun _ h => (by cases h)⟩,
    rfl, rfl, rfl, fun N h => (by cases h; exact Nat.le_refl _), rfl⟩

/-- UnspecifiedContentsAreNeverObserved: two different states that differ only in unspecified contents. -/
theorem witness_Unspecified : State.SameButUnspecified { State.reset with r := 1, t := [(3, 7)] } State.reset ∧
    Memory.wf [(3, 7)] = true ∧ State.reset.t.wf = true :=
  ⟨⟨rfl, fun h => (by cases h), rfl, fun h => (by cases h), rfl, rfl, rfl, rfl, rfl, rfl⟩, by decide, rfl⟩

/-- RunSucceedsExactlyWhenEveryStatusIsOk: a run with a fault in it (P5) and one without. -/
theorem witness_Run : ∃ s u : State, s.Inv ∧ s.fault = false ∧ (∀ m ∈ s.inputs.take 2, m ≠ .reset) ∧
    s.inputs = [.command 0x0200, .command 0x0361] ∧
    u.Inv ∧ u.fault = false ∧ (∀ m ∈ u.inputs.take 2, m ≠ .reset) ∧ u.inputs = [.command 0x0200, .command 0x0361] :=
  ⟨{ untabled with inputs := [.command 0x0200, .command 0x0361] },
    { tabled with inputs := [.command 0x0200, .command 0x0361] },
    inv_inputs untabled_inv _, rfl, by decide, rfl, inv_inputs tabled_inv _, rfl, by decide +kernel, rfl⟩

/-- BudgetDecidesAFullComputation, for one byte: at `N = n + 3` (P9) and at `N = n + 2` (P10). -/
theorem witness_Budget : ∀ N : Nat, N = 4 ∨ N = 3 → ∃ s : State, s.Inv ∧ s.fault = false ∧ s.budget = some N ∧
    s.ops = 0 ∧ s.inputs = presenting ([.tgen, .init] ++ [(0x61 : Byte)].map .upd ++ [.fin]) :=
  fun N _ => ⟨{ State.resetWith (some N) with
      inputs := presenting ([.tgen, .init] ++ [(0x61 : Byte)].map .upd ++ [.fin]) },
    ⟨rfl, fun h => (by cases h), fun _ => rfl, fun h => (by cases h), fun h => (by cases h),
      fun N _ => Nat.zero_le N, fun _ h => (by cases h)⟩, rfl, rfl, rfl, rfl⟩

end Sys2Proof.Tests
end

section
/-! The step on a word that decodes (spec/00_scope.md R7, spec/30_encoding.md R67, spec/60_exceptions.md R123). -/

namespace Sys2Proof.Machine

/-! ### A word placed by `withFetchWord` -/

/-- The table decoder reads exactly what `decode` accepts, whatever the reason of a rejection. -/
theorem decodeTableWord_eq_some_iff {nbits w : Nat} {i : Instr} :
    decodeTableWord nbits w = some i ↔ decode (tableWord nbits w) = .ok i := by
  unfold decodeTableWord
  cases decode (tableWord nbits w) with
  | ok j => simp
  | error e => simp

theorem withFetchWord_presents (s : State) (nbits w : Nat) :
    (s.withFetchWord nbits w).presents (tableWord nbits w) s.inputs := rfl

/-- Taking the placed word gives back the state it was placed in. -/
@[simp] theorem withFetchWord_taken (s : State) (nbits w : Nat) :
    (s.withFetchWord nbits w).taken s.inputs = s := rfl

/-- The placed word is run by the very next step, at the state it was placed in. -/
theorem step_withFetchWord {s : State} {nbits w : Nat} {i : Instr} (h : decodeTableWord nbits w = some i) :
    step (s.withFetchWord nbits w) = exec i s := by
  have hstep := step_command (withFetchWord_presents s nbits w) (decodeTableWord_eq_some_iff.mp h)
  rwa [withFetchWord_taken] at hstep

/-! ### The obligation -/

/-- Settles O8: the first clause is the law of a presented command, the second its case of a placed word. -/
theorem stepRunsTheDecodedCommand : Obligations.StepRunsTheDecodedCommand :=
  ⟨fun _ _ _ _ hpresents hdecode => step_command hpresents hdecode, fun _ _ _ _ h => step_withFetchWord h⟩

end Sys2Proof.Machine
end

section
/-! What a command, a presented move and a run can do, read off the next state (spec/60_exceptions.md R123): the
inversions from which the frame statements and the invariants below follow. -/

namespace Sys2Proof.Machine

/-! ### One command -/

/-- The next state of a command: the recorded cause is answered, a fault is taken, or the command completes. -/
theorem exec_next {i : Instr} {s s' : State} (h : exec i s = .next s') :
    (s.fault = true ∧ s' = s.respond s.cause 0) ∨
    (∃ c, s.fault = false ∧ s' = s.raise c) ∨
    (s.ready ∧ (needsTable i = true → s.tv = true) ∧ (needsCall i = true → s.co = true) ∧ s' = completed i s) := by
  have next_eq {u : State} (hu : exec i s = .next u) : s' = u := Host.Outcome.next.inj (h.symm.trans hu)
  rcases exec_cases i s with ⟨hf, hu⟩ | ⟨hf, _, hu⟩ | ⟨hr, _, _, hu⟩ | ⟨hr, _, _, _, hu⟩ | ⟨hr, ht, hc, hu⟩
  · exact .inl ⟨hf, next_eq hu⟩
  · exact .inr (.inl ⟨_, hf, next_eq hu⟩)
  · exact .inr (.inl ⟨_, hr.1, next_eq hu⟩)
  · exact .inr (.inl ⟨_, hr.1, next_eq hu⟩)
  · exact .inr (.inr ⟨hr, ht, hc, next_eq hu⟩)

/-- A command that completes leaves the store alone, unless it is `TGEN`. -/
theorem completed_t_of_ne_tgen {i : Instr} (hi : i ≠ .tgen) (s : State) : (completed i s).t = s.t := by
  cases i with
  | tgen => exact absurd rfl hi
  | trd _ | init | upd _ | fin => rfl

/-- Every command that completes keeps the store canonical. -/
theorem completed_wf {s : State} (h : s.t.wf = true) (i : Instr) : (completed i s).t.wf = true := by
  by_cases hi : i = .tgen
  · subst hi
    exact Memory.wf_fill h _ _
  · rwa [completed_t_of_ne_tgen hi]

/-! ### One step -/

/-- The next state of a step, by the host's move: waiting, reset, or a word, which is answered with the recorded cause,
raises a fault, or is a command that completes. -/
theorem step_next {s s' : State} (h : step s = .next s') :
    (s.inputs = [] ∧ s' = s) ∨
    (∃ rest, s.inputs = .reset :: rest ∧ s' = (s.taken rest).applyReset) ∨
    (∃ cw rest, s.presents cw rest ∧
      ((s.fault = true ∧ s' = (s.taken rest).respond s.cause 0) ∨
       (∃ c, s.fault = false ∧ s' = (s.taken rest).raise c) ∨
       (∃ i, s.ready ∧ (needsTable i = true → s.tv = true) ∧ (needsCall i = true → s.co = true) ∧
         s' = completed i (s.taken rest)))) := by
  have next_eq {u : State} (hu : step s = .next u) : s' = u := Host.Outcome.next.inj (h.symm.trans hu)
  rcases hin : s.inputs with _ | ⟨_ | cw, rest⟩
  · exact .inl ⟨rfl, next_eq (step_idle hin)⟩
  · exact .inr (.inl ⟨rest, rfl, next_eq (step_reset hin)⟩)
  · refine .inr (.inr ⟨cw, rest, hin, ?_⟩)
    rcases presents_cases hin with ⟨hf, hu⟩ | ⟨c, hf, _, hu⟩ | ⟨i, hr, _, ht, hc, hu⟩
    · exact .inl ⟨hf, next_eq hu⟩
    · exact .inr (.inl ⟨c, hf, next_eq hu⟩)
    · exact .inr (.inr ⟨i, hr, ht, hc, next_eq hu⟩)

/-- Every step has a next state. -/
theorem step_total (s : State) : ∃ s', step s = .next s' := by
  rcases hin : s.inputs with _ | ⟨_ | cw, rest⟩
  · exact ⟨_, step_idle hin⟩
  · exact ⟨_, step_reset hin⟩
  · rcases presents_cases hin with ⟨_, hu⟩ | ⟨_, _, _, hu⟩ | ⟨_, _, _, _, _, hu⟩
    · exact ⟨_, hu⟩
    · exact ⟨_, hu⟩
    · exact ⟨_, hu⟩

/-- Every step keeps the store canonical. -/
theorem step_wf {s s' : State} (h : s.t.wf = true) (hstep : step s = .next s') : s'.t.wf = true := by
  rcases step_next hstep with ⟨_, rfl⟩ | ⟨rest, _, rfl⟩ | ⟨cw, rest, _, ⟨_, rfl⟩ | ⟨c, _, rfl⟩ | ⟨i, _, _, _, rfl⟩⟩
  · exact h
  · rfl
  · exact h
  · exact h
  · exact completed_wf (s := s.taken rest) h i

/-- What every step keeps holds after any number of steps. -/
theorem runSteps_keeps {P : State → Prop} (hkeep : ∀ s s', P s → step s = .next s' → P s') (n : Nat) {s : State}
    (hs : P s) : ∃ s', runSteps n s = .next s' ∧ P s' := by
  induction n generalizing s with
  | zero => exact ⟨s, rfl, hs⟩
  | succ n ih =>
    obtain ⟨u, hu⟩ := step_total s
    rw [runSteps_succ n hu]
    exact ih (hkeep s u hs hu)

end Sys2Proof.Machine
end

section
/-! The invariant: it holds at reset, and each operation a step is made of keeps it (spec/10_state.md R25, R26,
spec/60_exceptions.md R124, R132, spec/70_reset_and_hazards.md R142). -/

namespace Sys2Proof.Machine

/-! ### Reset, and the operations of the frame -/

theorem State.Inv.resetWith (b : Option Nat) : (State.resetWith b).Inv where
  canonical := resetWith_wf b
  tableRight := by simp
  noCause := by simp
  causeUsed := by simp
  faultCloses := by simp
  withinBudget := by simp
  freshCall := by simp

/-- A reset move restores the invariant in any state (R140). -/
theorem State.Inv.applyReset (s : State) : s.applyReset.Inv := { State.Inv.resetWith s.budget with }

section
variable {s : State} (h : s.Inv)
include h

theorem State.Inv.taken (rest : List HostMove) : (s.taken rest).Inv := { h with }

theorem State.Inv.respond (st : Status) (d : Word) : (s.respond st d).Inv := { h with }

/-- Fault entry records a used cause and closes the call, whatever the state was (R124). -/
theorem State.Inv.raise (c : Cause) : (s.raise c).Inv :=
  { h with
    noCause := by simp
    causeUsed := fun _ => ⟨c, rfl⟩
    faultCloses := fun _ => rfl
    freshCall := by simp }

/-! ### The bodies of the commands -/

/-- Completing a command needs budget for one more (R132). -/
theorem State.Inv.complete (hb : s.budgetFor 1) (d : Word) : (s.complete d).Inv :=
  { h with withinBudget := hb }

/-- `TGEN` makes every entry right, whatever the store held (R85). -/
theorem State.Inv.genTable : (genTable s).Inv :=
  { h with
    canonical := Memory.wf_fill h.canonical _ _
    tableRight := fun _ => Memory.read_fill_all h.canonical _
    freshCall := by simp }

/-- Opening a call puts `RINIT` into the register (R105); no call may be opened in the faulted state. -/
theorem State.Inv.openCall (hf : s.fault = false) : s.openCall.Inv :=
  { h with
    faultCloses := by simp [hf]
    freshCall := fun _ _ => rfl }

theorem State.Inv.closeCall : s.closeCall.Inv :=
  { h with
    faultCloses := fun _ => rfl
    freshCall := by simp }

/-- The register leaves `RINIT` only with a valid table (R106, R142). -/
theorem State.Inv.foldByte (htv : s.tv = true) (b : Byte) : (foldByte b s).Inv :=
  { h with freshCall := by simp [htv] }

/-- A command that completes in a ready state keeps the invariant. -/
theorem State.Inv.completed {i : Instr} (hr : s.ready) (ht : needsTable i = true → s.tv = true) :
    (completed i s).Inv := by
  have hb : s.budgetFor 1 := (budgetFor_one_iff s).mpr hr.2
  cases i with
  | tgen => exact h.genTable.complete hb 0
  | trd k => exact h.complete hb _
  | init => exact (h.openCall hr.1).complete hb 0
  | upd b => exact (h.foldByte (ht rfl) b).complete hb 0
  | fin => exact h.closeCall.complete hb _

/-- Every step keeps the invariant. -/
theorem State.Inv.step {s' : State} (hstep : step s = .next s') : s'.Inv := by
  rcases step_next hstep with
    ⟨_, rfl⟩ | ⟨rest, _, rfl⟩ | ⟨cw, rest, _, ⟨_, rfl⟩ | ⟨c, _, rfl⟩ | ⟨i, hr, ht, _, rfl⟩⟩
  · exact h
  · exact .applyReset _
  · exact (h.taken rest).respond _ _
  · exact (h.taken rest).raise c
  · exact (h.taken rest).completed hr ht

end

/-! ### The obligations -/

/-- Settles O29: each operation a step is made of keeps the invariant. -/
theorem everyStepKeepsTheInvariant : Obligations.EveryStepKeepsTheInvariant :=
  fun _ _ h hstep => h.step hstep

/-- Settles O28. `State.reset` is the case of no ceiling. -/
theorem resetSatisfiesTheInvariant : Obligations.ResetSatisfiesTheInvariant :=
  ⟨State.Inv.resetWith none, State.Inv.resetWith⟩

/-- Settles O30: the run keeps the invariant, which holds at reset whatever the host will present. -/
theorem reachableTableIsRight : Obligations.ReachableTableIsRight := by
  intro b moves n
  obtain ⟨s', hrun, hinv⟩ := runSteps_keeps everyStepKeepsTheInvariant n ((State.Inv.resetWith b).taken moves)
  exact ⟨s', hrun, hinv.tableRight⟩

end Sys2Proof.Machine
end

section
/-! Unspecified contents are never observed (spec/10_state.md R33): two runs side by side. Each operation takes states
that agree on what is specified to states that do; the guards of the frame test specified fields only. -/

namespace Sys2Proof.Machine

section
variable {s u : State} (h : s.SameButUnspecified u)
include h

/-! ### The host's moves, responses, faults -/

theorem State.SameButUnspecified.taken (rest : List HostMove) :
    (s.taken rest).SameButUnspecified (u.taken rest) := { h with inputs := rfl }

theorem State.SameButUnspecified.applyReset : s.applyReset.SameButUnspecified u.applyReset where
  co := rfl
  r := fun _ => rfl
  tv := rfl
  t := fun _ _ => rfl
  fault := rfl
  cause := rfl
  ops := rfl
  budget := h.budget
  inputs := h.inputs
  responses := h.responses

theorem State.SameButUnspecified.respond (st : Status) (d : Word) :
    (s.respond st d).SameButUnspecified (u.respond st d) := { h with responses := by simp [h.responses] }

/-- Closing the call makes the register unspecified, so the two free values may differ (R22). -/
theorem State.SameButUnspecified.closeCall : s.closeCall.SameButUnspecified u.closeCall :=
  { h with
    co := rfl
    r := by simp }

theorem State.SameButUnspecified.raise (c : Cause) : (s.raise c).SameButUnspecified (u.raise c) :=
  { h.closeCall with
    fault := rfl
    cause := rfl
    responses := by simp [h.responses] }

/-! ### The bodies of the commands -/

theorem State.SameButUnspecified.complete (d : Word) : (s.complete d).SameButUnspecified (u.complete d) :=
  { h with
    ops := by simp [h.ops]
    responses := by simp [h.responses] }

/-- `TGEN` makes two canonical stores read alike, whatever they held. -/
theorem State.SameButUnspecified.genTable (hs : s.t.wf = true) (hu : u.t.wf = true) :
    (genTable s).SameButUnspecified (genTable u) :=
  { h with
    tv := rfl
    t := fun _ i => by simp [Memory.read_fill_all, hs, hu] }

theorem State.SameButUnspecified.openCall : s.openCall.SameButUnspecified u.openCall :=
  { h with
    co := rfl
    r := fun _ => rfl }

/-- `UPD` reads the register of an open call and a valid table, both specified. -/
theorem State.SameButUnspecified.foldByte (htv : s.tv = true) (hco : s.co = true) (b : Byte) :
    (foldByte b s).SameButUnspecified (foldByte b u) :=
  { h with r := fun _ => by simp [updateWith, h.r hco, h.t htv] }

/-! ### The command frame: it branches alike in both states -/

theorem State.SameButUnspecified.commandFrame {k : State → State} (hk : (k s).SameButUnspecified (k u)) :
    (commandFrame k s).SameButUnspecified (commandFrame k u) := by
  have hb : budgetExhausted s = budgetExhausted u := by simp [budgetExhausted, h.budget, h.ops]
  unfold Machine.commandFrame
  rw [← h.fault, ← h.cause, ← hb]
  split_ifs
  · exact h.respond _ _
  · exact h.raise _
  · exact hk

theorem State.SameButUnspecified.needTable {k : State → State}
    (hk : s.tv = true → (k s).SameButUnspecified (k u)) :
    (needTable k s).SameButUnspecified (needTable k u) := by
  unfold Machine.needTable
  rw [← h.tv]
  split_ifs with htv
  · exact hk htv
  · exact h.raise _

theorem State.SameButUnspecified.needCall {k : State → State}
    (hk : s.co = true → (k s).SameButUnspecified (k u)) :
    (needCall k s).SameButUnspecified (needCall k u) := by
  unfold Machine.needCall
  rw [← h.co]
  split_ifs with hco
  · exact hk hco
  · exact h.raise _

/-! ### Commands, steps, runs -/

/-- Each command reads the table and the register only behind their guards. -/
theorem State.SameButUnspecified.exec (hs : s.t.wf = true) (hu : u.t.wf = true) (i : Instr) :
    ∃ s' u', exec i s = .next s' ∧ exec i u = .next u' ∧ s'.SameButUnspecified u' := by
  cases i with
  | tgen => exact ⟨_, _, rfl, rfl, h.commandFrame ((h.genTable hs hu).complete 0)⟩
  | trd k =>
    refine ⟨_, _, rfl, rfl, h.commandFrame (h.needTable fun htv => ?_)⟩
    simpa [h.t htv] using h.complete (u.t.read (trdIndex k))
  | init => exact ⟨_, _, rfl, rfl, h.commandFrame (h.openCall.complete 0)⟩
  | upd b =>
    exact ⟨_, _, rfl, rfl,
      h.commandFrame (h.needTable fun htv => h.needCall fun hco => (h.foldByte htv hco b).complete 0)⟩
  | fin =>
    refine ⟨_, _, rfl, rfl, h.commandFrame (h.needCall fun hco => ?_)⟩
    simpa [checksum, h.r hco] using h.closeCall.complete (checksum u)

theorem State.SameButUnspecified.step (hs : s.t.wf = true) (hu : u.t.wf = true) :
    ∃ s' u', step s = .next s' ∧ step u = .next u' ∧ s'.SameButUnspecified u' := by
  rcases step_cases s with
    ⟨hin, hstep⟩ | ⟨rest, hin, hstep⟩ | ⟨cw, rest, i, hin, hd, hstep⟩ | ⟨cw, rest, e, hin, hd, hstep⟩
  · exact ⟨s, u, hstep, step_idle (h.inputs.symm.trans hin), h⟩
  · exact ⟨_, _, hstep, step_reset (h.inputs.symm.trans hin), (h.taken rest).applyReset⟩
  · rw [hstep, step_command (h.inputs.symm.trans hin) hd]
    exact (h.taken rest).exec hs hu i
  · exact ⟨_, _, hstep, step_illegal (h.inputs.symm.trans hin) hd,
      (h.taken rest).commandFrame ((h.taken rest).raise .illegalCommand)⟩

theorem State.SameButUnspecified.runSteps (n : Nat) (hs : s.t.wf = true) (hu : u.t.wf = true) :
    ∃ s' u', runSteps n s = .next s' ∧ runSteps n u = .next u' ∧ s'.SameButUnspecified u' := by
  induction n generalizing s u with
  | zero => exact ⟨s, u, rfl, rfl, h⟩
  | succ n ih =>
    obtain ⟨s₁, u₁, hs₁, hu₁, h₁⟩ := h.step hs hu
    rw [runSteps_succ n hs₁, runSteps_succ n hu₁]
    exact ih h₁ (step_wf hs hs₁) (step_wf hu hu₁)

end

/-- Settles O40: the two runs stay alike step by step, their stores canonical. -/
theorem unspecifiedContentsAreNeverObserved : Obligations.UnspecifiedContentsAreNeverObserved :=
  fun n _ _ h hs hu => h.runSteps n hs hu

end Sys2Proof.Machine
end

section
/-! What commands leave unchanged and what they count (spec/10_state.md R21 to R23, R27); what reset leaves (R32). -/

namespace Sys2Proof.Machine

/-- A command that completes with a call open: `INIT` opened it, `UPD` folded a byte into it, or it stood open with its
register untouched. -/
theorem completed_register {i : Instr} {s : State} (hc : needsCall i = true → s.co = true)
    (hco : (completed i s).co = true) :
    (i = .init ∧ (completed i s).r = Config.RINIT) ∨ (s.co = true ∧ ∃ b, i = .upd b) ∨
    (s.co = true ∧ (completed i s).r = s.r) := by
  cases i with
  | tgen | trd _ => exact .inr (.inr ⟨hco, rfl⟩)
  | init => exact .inl ⟨rfl, rfl⟩
  | upd b => exact .inr (.inl ⟨hc rfl, b, rfl⟩)
  | fin => cases hco

/-- Settles O23: a fault closes the call, so only a completed command or an answered recorded fault leaves one open. -/
theorem registerWrittenOnlyByInitAndUpd : Obligations.RegisterWrittenOnlyByInitAndUpd := by
  intro i s s' hexec hco
  rcases exec_next hexec with ⟨_, rfl⟩ | ⟨c, _, rfl⟩ | ⟨_, _, hc, rfl⟩
  · exact .inr (.inr ⟨hco, rfl⟩)
  · cases hco
  · exact completed_register hc hco

/-- Settles O25, by what presenting a word can do. -/
theorem opsCountsCompletedCommands : Obligations.OpsCountsCompletedCommands := by
  intro s cw rest hp
  rcases presents_cases hp with ⟨hf, hstep⟩ | ⟨c, _, _, hstep⟩ | ⟨i, hr, _, _, _, hstep⟩
  · exact ⟨_, hstep, .inr ⟨hf, rfl⟩⟩
  · exact ⟨_, hstep, .inr ⟨rfl, rfl⟩⟩
  · exact ⟨_, hstep, .inl ⟨hr.1, by simpa using hr.1, by simp⟩⟩

/-- Settles O22: an answered or a taken fault leaves the store alone, and so does completing such a command. -/
theorem onlyTgenWritesTheTable : Obligations.OnlyTgenWritesTheTable := by
  intro i s s' hi hexec a
  rcases exec_next hexec with ⟨_, rfl⟩ | ⟨c, _, rfl⟩ | ⟨_, _, _, rfl⟩
  · rfl
  · rfl
  · rw [completed_t_of_ne_tgen hi]

/-- Settles O26: both kinds of reset state have the values by definition. -/
theorem resetLeavesTheStatedValues : Obligations.ResetLeavesTheStatedValues := by
  rintro s (⟨b, rfl⟩ | ⟨u, rfl⟩)
  · exact ⟨rfl, rfl, rfl, rfl, rfl⟩
  · exact ⟨rfl, rfl, rfl, rfl, rfl⟩

end Sys2Proof.Machine
end

section
/-! The decoder and the encoder (spec/30_encoding.md R61 to R64): a word is its two fields, and it decodes to a command
exactly when it is that command's encoding. -/

namespace Sys2Proof

open Laws (cmdOp_append cmdArg_append)

/-! ### The two fields of a word -/

theorem cmdOp_append_cmdArg (cw : CmdWord) : cmdOp cw ++ cmdArg cw = cw :=
  (BitVec.extractLsb'_append_extractLsb'_eq_extractLsb' rfl).trans BitVec.extractLsb'_eq_self

theorem cmdArg_eq_setWidth (cw : CmdWord) : cmdArg cw = cw.setWidth 8 :=
  BitVec.setWidth_eq_extractLsb' (by decide) |>.symm

@[simp] theorem cmdOp_encode (i : Instr) : cmdOp (encode i) = opcode i := cmdOp_append _ _

@[simp] theorem cmdArg_encode (i : Instr) : cmdArg (encode i) = argument i := cmdArg_append _ _

/-- The concatenation of R61 as a sum. -/
theorem append_eq_add (op a : Byte) : op ++ a = op ++ 0x00#8 + a.setWidth 16 := by
  rw [BitVec.setWidth_eq_append (by decide), BitVec.cast_eq, BitVec.append_zero_add_zero_append]

theorem encode_trd (i : Byte) : encode (.trd i) = 0x0100 + i.setWidth 16 := append_eq_add 0x01 i

theorem encode_upd (b : Byte) : encode (.upd b) = 0x0300 + b.setWidth 16 := append_eq_add 0x03 b

/-! ### Decoding -/

/-- Everything the decoder can answer (R63, R64). -/
theorem decode_cases (cw : CmdWord) :
    (∃ i, decode cw = .ok i ∧ cmdOp cw = opcode i ∧ cmdArg cw = argument i) ∨
    (decode cw = .error .nonZeroArg ∧ (cmdOp cw = 0x00 ∨ cmdOp cw = 0x02 ∨ cmdOp cw = 0x04) ∧ cmdArg cw ≠ 0x00) ∨
    (decode cw = .error .reservedOpcode ∧ 0x05 ≤ (cmdOp cw).toNat) := by
  unfold decode decodeBare
  split_ifs with h0 ha h1 h2 ha h3 h4 ha
  · exact .inl ⟨_, rfl, h0, ha⟩
  · exact .inr (.inl ⟨rfl, .inl h0, ha⟩)
  · exact .inl ⟨_, rfl, h1, rfl⟩
  · exact .inl ⟨_, rfl, h2, ha⟩
  · exact .inr (.inl ⟨rfl, .inr (.inl h2), ha⟩)
  · exact .inl ⟨_, rfl, h3, rfl⟩
  · exact .inl ⟨_, rfl, h4, ha⟩
  · exact .inr (.inl ⟨rfl, .inr (.inr h4), ha⟩)
  · exact .inr (.inr ⟨rfl, by bv_omega⟩)

@[simp] theorem decode_encode (i : Instr) : decode (encode i) = .ok i := by
  rw [decode, cmdOp_encode, cmdArg_encode]
  cases i with
  | tgen | trd _ | init | upd _ | fin => rfl

theorem decode_eq_ok_iff {cw : CmdWord} {i : Instr} : decode cw = .ok i ↔ cw = encode i := by
  constructor
  · intro h
    rcases decode_cases cw with ⟨j, hd, hop, harg⟩ | ⟨hd, _⟩ | ⟨hd, _⟩
    · rw [← cmdOp_append_cmdArg cw, hop, harg, ← encode, Except.ok.inj (h.symm.trans hd)]
    · cases h.symm.trans hd
    · cases h.symm.trans hd
  · rintro rfl
    exact decode_encode i

/-- The illegal words of R64. -/
theorem decode_eq_error_iff (cw : CmdWord) : (∃ e, decode cw = .error e) ↔
    0x05 ≤ (cmdOp cw).toNat ∨ ((cmdOp cw = 0x00 ∨ cmdOp cw = 0x02 ∨ cmdOp cw = 0x04) ∧ cmdArg cw ≠ 0x00) := by
  rcases decode_cases cw with ⟨i, hd, hop, harg⟩ | ⟨hd, hop, harg⟩ | ⟨hd, hop⟩
  · rw [hd, hop, harg]
    cases i with
    | tgen | trd _ | init | upd _ | fin => simp [opcode, argument]
  · exact ⟨fun _ => .inr ⟨hop, harg⟩, fun _ => ⟨_, hd⟩⟩
  · exact ⟨fun _ => .inl hop, fun _ => ⟨_, hd⟩⟩

/-! ### The rows of the opcode map (R63) -/

/-- The mask of the rows without an operand keeps the whole word. -/
theorem and_wholeMask (cw : CmdWord) : cw &&& 0xFFFF = cw := BitVec.and_allOnes

/-- The mask of the rows with an operand clears the argument. -/
theorem and_opcodeMask (cw : CmdWord) : cw &&& 0xFF00 = cmdOp cw ++ 0x00#8 :=
  calc cw &&& 0xFF00
    _ = (cmdOp cw ++ cmdArg cw) &&& (BitVec.allOnes 8 ++ 0x00#8) := by rw [cmdOp_append_cmdArg]; rfl
    _ = cmdOp cw ++ 0x00#8 := by rw [BitVec.and_append, BitVec.and_allOnes, BitVec.and_zero]

/-- A row with an operand fixes the opcode and leaves the low 8 bits to the operand. -/
theorem eq_append_iff_masked {cw : CmdWord} (op a : Byte) :
    cw = op ++ a ↔ cw &&& 0xFF00 = op ++ 0x00#8 ∧ a = cw.setWidth 8 := by
  rw [and_opcodeMask, BitVec.append_left_inj, ← cmdArg_eq_setWidth]
  constructor
  · rintro rfl
    exact ⟨cmdOp_append _ _, (cmdArg_append _ _).symm⟩
  · rintro ⟨rfl, rfl⟩
    exact (cmdOp_append_cmdArg cw).symm

theorem legalWord_encode (i : Instr) : legalWord (encode i) = true := by
  have ⟨_, hlegal, _, _⟩ : Laws.EncodesLegalWord.Statement i := by
    cases i with
    | tgen => exact Laws.EncodesLegalWord.tgen
    | trd k => exact Laws.EncodesLegalWord.trd k
    | init => exact Laws.EncodesLegalWord.init
    | upd b => exact Laws.EncodesLegalWord.upd b
    | fin => exact Laws.EncodesLegalWord.fin
  exact hlegal

theorem legalWord_iff (cw : CmdWord) : legalWord cw = true ↔ ∃ i, cw = encode i := by
  constructor
  · simp only [legalWord, opcodeRows, OpcodeRow.covers, List.any_cons, List.any_nil, Bool.or_false, Bool.or_eq_true,
      beq_iff_eq, and_wholeMask]
    rintro (h | h | h | h | h)
    · exact ⟨.tgen, h⟩
    · exact ⟨.trd _, (eq_append_iff_masked 0x01 _).mpr ⟨h, rfl⟩⟩
    · exact ⟨.init, h⟩
    · exact ⟨.upd _, (eq_append_iff_masked 0x03 _).mpr ⟨h, rfl⟩⟩
    · exact ⟨.fin, h⟩
  · rintro ⟨i, rfl⟩
    exact legalWord_encode i

/-! ### The obligations -/

/-- Settles O3: a word is its two fields, so decoding loses nothing. -/
theorem decodeEncodeAgree : Obligations.DecodeEncodeAgree :=
  ⟨fun i _ => decode_encode i, fun _ _ h => (decode_eq_ok_iff.mp h).symm⟩

/-- Settles O2: each row's mask and match say that the word is the encoding of the row's command. -/
theorem wordsDecodeByTheirRow : Obligations.WordsDecodeByTheirRow := by
  intro cw
  simp only [decode_eq_ok_iff, and_wholeMask]
  exact ⟨.rfl, eq_append_iff_masked 0x01, .rfl, eq_append_iff_masked 0x03, .rfl⟩

/-- Settles O1: ten fixed words. -/
theorem specWordsDecode : Obligations.SpecWordsDecode := by
  unfold Obligations.SpecWordsDecode
  decide

end Sys2Proof
end

section
/-! Presenting a word (spec/30_encoding.md R64, R66, R67): an illegal word faults, every word gets one response, and
with no word the block waits. -/

namespace Sys2Proof.Machine

theorem faultedFrom_raise (c : Cause) (s : State) : s.faultedFrom c (s.raise c) := ⟨_, _, rfl⟩

/-- No cause code is the status `OK` (R121). -/
theorem code_ne_zero (c : Cause) : c.code ≠ 0 := by
  cases c with
  | illegalCommand | tableNotReady | noOpenCall | budgetExceeded => decide

/-- The recorded cause of a faulted state is never the status `OK`. -/
theorem State.Inv.cause_ne_zero {s : State} (h : s.Inv) (hf : s.fault = true) : s.cause ≠ 0 := by
  obtain ⟨c, hc⟩ := h.causeUsed hf
  exact hc ▸ code_ne_zero c

/-- In a ready state an illegal word raises `IllegalCommand` (R64, R122). -/
theorem rejectWord_ready {s : State} (h : s.ready) : rejectWord s = s.raise .illegalCommand :=
  commandFrame_ready h _

/-! ### The obligations -/

/-- Settles O4: the second clause is the rejection of a word in a ready state. -/
theorem illegalWordsRaiseIllegalCommand : Obligations.IllegalWordsRaiseIllegalCommand := by
  refine ⟨decode_eq_error_iff, fun s cw rest e hready hp hd => ⟨_, step_illegal hp hd, ?_⟩⟩
  rw [rejectWord_ready (s := s.taken rest) hready]
  exact faultedFrom_raise _ _

/-- Settles O11, by what presenting a word can do: the status is 0 only for a command that completes, since a recorded
or a newly raised cause has a code that is not 0. -/
theorem everyCommandGetsOneResponse : Obligations.EveryCommandGetsOneResponse := by
  intro s cw rest hinv hp
  rcases presents_cases hp with ⟨hf, hstep⟩ | ⟨c, _, _, hstep⟩ | ⟨i, hr, hd, _, _, hstep⟩
  · exact ⟨_, ⟨s.cause, 0⟩, hstep, rfl, rfl, fun h => absurd h (hinv.cause_ne_zero hf), fun _ => ⟨hf, rfl, rfl⟩⟩
  · exact ⟨_, ⟨c.code, 0⟩, hstep, rfl, rfl, fun h => absurd h (code_ne_zero c), fun _ => ⟨rfl, rfl, rfl⟩⟩
  · exact ⟨_, ⟨0, responseData i s⟩, hstep, by simp, by simp,
      fun _ => ⟨by simpa using hr.1, by simp, i, hd, rfl⟩, fun h => absurd rfl h⟩

/-- Settles O9. -/
theorem blockWaitsWithoutACommand : Obligations.BlockWaitsWithoutACommand :=
  fun _ h => step_idle h

end Sys2Proof.Machine
end

section
/-! Numbers in assembler text (spec/30_encoding.md R68, R70): each of the two spellings of a number reads back as that
number, and neither holds a `;`. -/

namespace Sys2Proof.Machine

/-! ### Digits -/

theorem digit_hexDigit {d : Nat} (h : d < 16) : digit 16 (hexDigit d) = some d := by
  revert d
  decide

theorem digit_digitChar {d : Nat} (h : d < 10) : digit 10 d.digitChar = some d := by
  revert d
  decide

theorem hexDigit_ne_semicolon {d : Nat} (h : d < 16) : hexDigit d ≠ ';' := by
  revert d
  decide

/-- The last digit is added to `base` times the value of those before it. -/
theorem digitsFrom_concat (base acc : Nat) (cs : List Char) (c : Char) :
    digitsFrom base acc (cs ++ [c]) =
      (digitsFrom base acc cs).bind fun v => (digit base c).map fun d => base * v + d := by
  induction cs generalizing acc with
  | nil => cases h : digit base c <;> simp [digitsFrom, h]
  | cons a cs ih =>
    cases h : digit base a <;> simp [digitsFrom, h, ih]

/-! ### The hexadecimal spelling -/

theorem digitsFrom_hexDigits (k n : Nat) : digitsFrom 16 0 (hexDigits k n) = some (n % 16 ^ k) := by
  induction k generalizing n with
  | zero => simp [hexDigits, digitsFrom, Nat.mod_one]
  | succ k ih =>
    rw [hexDigits, digitsFrom_concat, ih, digit_hexDigit (Nat.mod_lt _ (by decide)), Nat.pow_succ', Nat.mod_mul,
      Nat.add_comm]
    rfl

theorem number_hex (b : Byte) : number (hex 2 b.toNat) = some b.toNat := by
  have hvalue : numberValue (hex 2 b.toNat) = some b.toNat :=
    (digitsFrom_hexDigits 2 b.toNat).trans (congrArg some (Nat.mod_eq_of_lt b.isLt))
  simp [number, hvalue]

theorem semicolon_notMem_hexDigits (k n : Nat) : ';' ∉ hexDigits k n := by
  induction k generalizing n with
  | zero => exact List.not_mem_nil
  | succ k ih => simp [hexDigits, ih, (hexDigit_ne_semicolon (Nat.mod_lt n (by decide))).symm]

theorem semicolon_notMem_hex (k n : Nat) : ';' ∉ hex k n := by
  simp [hex, semicolon_notMem_hexDigits]

/-! ### The decimal spelling -/

theorem digitsFrom_decimal (n : Nat) : digitsFrom 10 0 (decimal n) = some n := by
  unfold decimal
  induction n using Nat.strongRecOn with
  | ind n ih =>
    rcases Nat.lt_or_ge n 10 with hn | hn
    · simp [Nat.toDigits_of_lt_base hn, digitsFrom, digit_digitChar hn]
    · rw [Nat.toDigits_of_base_le (by decide) hn, digitsFrom_concat, ih _ (by omega),
        digit_digitChar (Nat.mod_lt _ (by decide))]
      exact congrArg some (Nat.div_add_mod n 10)

/-- A character that is no decimal digit does not stand in a decimal number. -/
theorem notMem_decimal {c : Char} (hc : c.isDigit = false) (n : Nat) : c ∉ decimal n := fun h =>
  absurd (Nat.isDigit_of_mem_toDigits (by decide) (by decide) h) (by simp [hc])

/-- Text without an `x` does not begin with `0x`, so it is read in decimal. -/
theorem numberValue_of_notMem_x {cs : List Char} (h : 'x' ∉ cs) : numberValue cs = digitsFrom 10 0 cs := by
  unfold numberValue
  split
  · simp at h
  · rfl

theorem number_decimal (n : Nat) : number (decimal n) = some n := by
  have hvalue : numberValue (decimal n) = some n :=
    (numberValue_of_notMem_x (notMem_decimal (by decide) n)).trans (digitsFrom_decimal n)
  simp [number, hvalue]

end Sys2Proof.Machine
end

section
/-! What a statement expands to: an operand in range is a byte, and `CRC32` is the call of its bytes
(spec/30_encoding.md R68, R69). -/

namespace Sys2Proof.Machine

/-! ### Operands and characters in range -/

theorem operandOk_toNat (b : Byte) : operandOk b.toNat = true :=
  decide_eq_true (Nat.le_of_lt_succ b.isLt)

theorem eq_toNat_of_operandOk {n : Nat} (h : operandOk n = true) : ∃ b : Byte, n = b.toNat :=
  ⟨BitVec.ofNat 8 n, (Nat.mod_eq_of_lt (Nat.lt_succ_of_le (of_decide_eq_true h))).symm⟩

theorem textCharOk_iff (c : Char) : textCharOk c = true ↔ 0x20 ≤ c.toNat ∧ c.toNat ≤ 0x7E ∧ c ≠ '"' := by
  simp [textCharOk, and_assoc]

/-! ### Statements -/

theorem expandStmt_trd (i : Byte) : expandStmt (.trd i.toNat) = some [.trd i] := by
  simp [expandStmt, AsmStmt.wf, operandOk_toNat]

theorem expandStmt_upd (b : Byte) : expandStmt (.upd b.toNat) = some [.upd b] := by
  simp [expandStmt, AsmStmt.wf, operandOk_toNat]

theorem expandStmt_crc32 (bytes : List Byte) : expandStmt (.crc32 (bytes.map BitVec.toNat)) = some (callOf bytes) := by
  have hwf : (AsmStmt.crc32 (bytes.map BitVec.toNat)).wf = true := by
    simp [AsmStmt.wf, operandOk_toNat]
  simp [expandStmt, hwf, Function.comp_def]

theorem expandStmt_crc32Text {text : List Char} (h : ∀ c ∈ text, textCharOk c = true) :
    expandStmt (.crc32Text text) = some (callOf (text.map fun c => BitVec.ofNat 8 c.toNat)) :=
  if_pos (List.all_eq_true.mpr h)

theorem expandStmt_eq_none {st : AsmStmt} (h : st.wf = false) : expandStmt st = none := by
  simp [expandStmt, h]

/-! ### The obligation -/

/-- Settles O7: a `CRC32` statement expands to the call of its bytes exactly when it is well formed. -/
theorem pseudoInstructionExpands : Obligations.PseudoInstructionExpands := by
  refine ⟨expandStmt_crc32, fun ns ⟨n, hmem, hn⟩ => ?_, fun text h => ?_, fun text ⟨c, hmem, hc⟩ => ?_⟩
  · refine expandStmt_eq_none (List.all_eq_false.mpr ⟨n, hmem, ?_⟩)
    simpa [operandOk] using hn
  · rw [expandStmt_crc32Text fun c hc => (textCharOk_iff c).mpr (h c hc), callOf, List.map_map]
    rfl
  · refine expandStmt_eq_none (List.all_eq_false.mpr ⟨c, hmem, ?_⟩)
    rw [textCharOk_iff]
    rintro ⟨hlo, hhi, hquote⟩
    rcases hc with hc | hc | hc
    · omega
    · omega
    · exact hquote hc

end Sys2Proof.Machine
end

section
/-! Source lines (spec/30_encoding.md R68, R70): reading the printed text of a word gives the word back, and a line of
one word is that text, or the same with its operand in decimal. -/

namespace Sys2Proof.Machine

/-! ### Reading a line -/

theorem stripComment_of_notMem {cs : List Char} (h : ';' ∉ cs) : stripComment cs = cs := by
  simp [stripComment, h]

/-- A line that begins with a mnemonic is the statement of that mnemonic. -/
theorem assembleLine_append {m rest : List Char} (hm : ∀ c ∈ m, isMnemonicChar c = true) (hne : m ≠ [])
    (hrest : ∀ c ∈ rest.head?, isMnemonicChar c = false) :
    assembleLine (m ++ rest) = ((parseStmt m rest).bind expandStmt).map (·.map encode) := by
  have hblank : (stripComment (m ++ rest)).all isBlank = false := by
    obtain ⟨c, m, rfl⟩ := List.exists_cons_of_ne_nil hne
    rw [stripComment_append hm]
    simp [(isMnemonicChar_ne (hm c List.mem_cons_self)).1]
  have htake : rest.takeWhile isMnemonicChar = [] ∧ rest.dropWhile isMnemonicChar = rest := by
    cases rest with
    | nil => simp
    | cons c rest => simp [hrest c rfl]
  simp [assembleLine, hblank, List.takeWhile_append_of_pos hm, List.dropWhile_append_of_pos hm, htake]

/-- A line that assembles gives no word, or is a mnemonic with its operand field. -/
theorem assembleLine_cases {line : List Char} {ws : List CmdWord} (h : assembleLine line = some ws) :
    ws = [] ∨ ∃ m rest st is, stripComment line = m ++ stripComment rest ∧ parseStmt m rest = some st ∧
      expandStmt st = some is ∧ ws = is.map encode := by
  unfold assembleLine at h
  split at h
  · exact .inl (Option.some.inj h).symm
  · simp only [Option.map_eq_some_iff, Option.bind_eq_some_iff] at h
    obtain ⟨is, ⟨st, hst, his⟩, hws⟩ := h
    refine .inr ⟨_, _, st, is, ?_, hst, his, hws.symm⟩
    rw [← stripComment_append fun c hc => List.mem_takeWhile_imp hc, List.takeWhile_append_dropWhile]

/-! ### The mnemonics -/

/-- The statement that a mnemonic makes of its operand field: that of a command without operand, `TRD`, `UPD` or
`CRC32`. -/
theorem parseStmt_cases {m rest : List Char} {st : AsmStmt} (h : parseStmt m rest = some st) :
    (∃ i, m = disassemble (encode i) ∧ stripComment rest = [] ∧ expandStmt st = some [i]) ∨
    (m = ['T', 'R', 'D'] ∧ ∃ n, operand (stripComment rest) = some n ∧ st = .trd n) ∨
    (m = ['U', 'P', 'D'] ∧ ∃ n, operand (stripComment rest) = some n ∧ st = .upd n) ∨
    crcOperand rest = some st := by
  unfold parseStmt at h
  split_ifs at h with hm hm hm hm hm hm
  · obtain ⟨hrest, rfl⟩ := bareOperand_cases h
    exact .inl ⟨.tgen, hm, hrest, rfl⟩
  · obtain ⟨n, hn, rfl⟩ := Option.map_eq_some_iff.mp h
    exact .inr (.inl ⟨hm, n, hn, rfl⟩)
  · obtain ⟨hrest, rfl⟩ := bareOperand_cases h
    exact .inl ⟨.init, hm, hrest, rfl⟩
  · obtain ⟨n, hn, rfl⟩ := Option.map_eq_some_iff.mp h
    exact .inr (.inr (.inl ⟨hm, n, hn, rfl⟩))
  · obtain ⟨hrest, rfl⟩ := bareOperand_cases h
    exact .inl ⟨.fin, hm, hrest, rfl⟩
  · exact .inr (.inr (.inr h))

/-- The operand field of `CRC32` makes one of the two `CRC32` statements. -/
theorem crcOperand_cases {rest : List Char} {st : AsmStmt} (h : crcOperand rest = some st) :
    (∃ bytes, st = .crc32 bytes) ∨ ∃ text, st = .crc32Text text := by
  unfold crcOperand at h
  split at h
  · split at h
    · exact .inr ⟨_, (bareOperand_cases h).2⟩
    · cases h
  · split_ifs at h
    · exact .inl ⟨_, (Option.some.inj h).symm⟩
    · obtain ⟨bytes, _, rfl⟩ := Option.map_eq_some_iff.mp h
      exact .inl ⟨bytes, rfl⟩

/-- A `CRC32` line never stands for a single command. -/
theorem two_le_length_of_crcOperand {rest : List Char} {st : AsmStmt} {is : List Instr}
    (h : crcOperand rest = some st) (his : expandStmt st = some is) : 2 ≤ is.length := by
  have hwf := wf_of_expandStmt his
  rcases crcOperand_cases h with ⟨bytes, rfl⟩ | ⟨text, rfl⟩
  · obtain rfl := Option.some.inj ((if_pos hwf).symm.trans his)
    exact two_le_length_callOf _
  · obtain rfl := Option.some.inj ((if_pos hwf).symm.trans his)
    exact two_le_length_callOf _

/-! ### Lines with an operand -/

/-- An operand in range is a byte in one of its two spellings (R70). -/
theorem operand_spelling_of_ok {cs : List Char} {n : Nat} (h : operand cs = some n) (hok : operandOk n = true) :
    ∃ b : Byte, n = b.toNat ∧ (cs = ' ' :: decimal b.toNat ∨ cs = ' ' :: hex 2 b.toNat) := by
  obtain ⟨b, rfl⟩ := eq_toNat_of_operandOk hok
  exact ⟨b, rfl, operand_spelling h⟩

/-- A line that is a mnemonic, one space and an operand field. -/
theorem assembleLine_operand {m : List Char} (hm : m.all isMnemonicChar = true) (hne : m ≠ []) (ds : List Char) :
    assembleLine (m ++ ' ' :: ds) = ((parseStmt m (' ' :: ds)).bind expandStmt).map (·.map encode) := by
  refine assembleLine_append (List.all_eq_true.mp hm) hne fun c hc => ?_
  cases hc
  decide

section
variable {ds : List Char} (hds : ';' ∉ ds)
include hds

theorem operand_stripComment : operand (stripComment (' ' :: ds)) = number ds := by
  rw [stripComment_of_notMem (by simpa using hds), operand]

theorem assembleLine_trd {i : Byte} (hn : number ds = some i.toNat) :
    assembleLine (['T', 'R', 'D', ' '] ++ ds) = some [encode (.trd i)] := by
  have hparse : parseStmt ['T', 'R', 'D'] (' ' :: ds) = some (.trd i.toNat) :=
    congrArg (Option.map AsmStmt.trd) ((operand_stripComment hds).trans hn)
  have hline := assembleLine_operand (m := ['T', 'R', 'D']) (by decide) (by decide) ds
  rw [hparse, Option.bind_some, expandStmt_trd] at hline
  exact hline

theorem assembleLine_upd {b : Byte} (hn : number ds = some b.toNat) :
    assembleLine (['U', 'P', 'D', ' '] ++ ds) = some [encode (.upd b)] := by
  have hparse : parseStmt ['U', 'P', 'D'] (' ' :: ds) = some (.upd b.toNat) :=
    congrArg (Option.map AsmStmt.upd) ((operand_stripComment hds).trans hn)
  have hline := assembleLine_operand (m := ['U', 'P', 'D']) (by decide) (by decide) ds
  rw [hparse, Option.bind_some, expandStmt_upd] at hline
  exact hline

end

/-! ### The printed text of a word -/

theorem disassemble_encode_trd (i : Byte) : disassemble (encode (.trd i)) = ['T', 'R', 'D', ' '] ++ hex 2 i.toNat := by
  rw [disassemble, decode_encode]

theorem disassemble_encode_upd (b : Byte) : disassemble (encode (.upd b)) = ['U', 'P', 'D', ' '] ++ hex 2 b.toNat := by
  rw [disassemble, decode_encode]

theorem disassemble_of_error {cw : CmdWord} {e : Reject} (h : decode cw = .error e) :
    disassemble cw = ['I', 'L', 'L', 'E', 'G', 'A', 'L'] ++ ' ' :: hex 4 cw.toNat := by
  rw [disassemble, h]
  rfl

theorem assembleLine_disassemble_encode (i : Instr) : assembleLine (disassemble (encode i)) = some [encode i] := by
  cases i with
  | tgen | init | fin => decide
  | trd k => rw [disassemble_encode_trd, assembleLine_trd (semicolon_notMem_hex _ _) (number_hex k)]
  | upd b => rw [disassemble_encode_upd, assembleLine_upd (semicolon_notMem_hex _ _) (number_hex b)]

/-- `ILLEGAL` is no mnemonic. -/
theorem assembleLine_disassemble_illegal {cw : CmdWord} {e : Reject} (h : decode cw = .error e) :
    assembleLine (disassemble cw) = none := by
  rw [disassemble_of_error h, assembleLine_operand (by decide) (by decide)]
  rfl

/-! ### The obligations -/

/-- Settles O5: a legal word is the encoding of a command, an illegal one prints as no mnemonic of the assembler. -/
theorem assemblingDisassembledTextGivesTheWord : Obligations.AssemblingDisassembledTextGivesTheWord := by
  refine fun cw => ⟨fun hlegal => ?_, fun hillegal => ?_⟩
  · obtain ⟨i, rfl⟩ := (legalWord_iff cw).mp hlegal
    exact assembleLine_disassemble_encode i
  · rcases hd : decode cw with e | i
    · exact assembleLine_disassemble_illegal hd
    · rw [decode_eq_ok_iff.mp hd, legalWord_encode] at hillegal
      cases hillegal

/-- Settles O6: a decimal number reads back as itself. -/
theorem decimalOperandsAssemble : Obligations.DecimalOperandsAssemble := by
  have hds (n : Byte) : ';' ∉ decimal n.toNat := notMem_decimal (by decide) _
  refine ⟨fun n => ⟨?_, ?_⟩, by decide, by decide⟩
  · rw [← encode_trd]
    exact assembleLine_trd (hds n) (number_decimal _)
  · rw [← encode_upd]
    exact assembleLine_upd (hds n) (number_decimal _)

/-- Settles O43: the mnemonic decides the statement, an operand has one spelling in each radix, and `CRC32` gives two
words at least. -/
theorem lineOfAWordIsItsPrintedOrDecimalForm : Obligations.LineOfAWordIsItsPrintedOrDecimalForm := by
  intro line cw h
  rcases assembleLine_cases h with h | ⟨m, rest, st, is, hline, hst, his, hws⟩
  · cases h
  rw [hline]
  rcases parseStmt_cases hst with ⟨i, rfl, hrest, hi⟩ | ⟨rfl, n, hn, rfl⟩ | ⟨rfl, n, hn, rfl⟩ | hcrc
  · obtain rfl := Option.some.inj (hi.symm.trans his)
    obtain rfl := List.singleton_inj.mp hws
    rw [hrest, List.append_nil]
    exact .inl rfl
  · obtain ⟨i, rfl, hspelling⟩ := operand_spelling_of_ok hn (wf_of_expandStmt his)
    obtain rfl := Option.some.inj ((expandStmt_trd i).symm.trans his)
    obtain rfl := List.singleton_inj.mp hws
    rcases hspelling with hdec | hhex
    · exact .inr ⟨i, .inl ⟨encode_trd i, congrArg (['T', 'R', 'D'] ++ ·) hdec⟩⟩
    · exact .inl (by rw [hhex, disassemble_encode_trd]; rfl)
  · obtain ⟨b, rfl, hspelling⟩ := operand_spelling_of_ok hn (wf_of_expandStmt his)
    obtain rfl := Option.some.inj ((expandStmt_upd b).symm.trans his)
    obtain rfl := List.singleton_inj.mp hws
    rcases hspelling with hdec | hhex
    · exact .inr ⟨b, .inr ⟨encode_upd b, congrArg (['U', 'P', 'D'] ++ ·) hdec⟩⟩
    · exact .inl (by rw [hhex, disassemble_encode_upd]; rfl)
  · have htwo := two_le_length_of_crcOperand hcrc his
    have hone : 1 = is.length := by simpa using congrArg List.length hws
    omega

end Sys2Proof.Machine
end

section
/-! No command and no step stops the machine, and the checks that come first in every command (spec/40_table_gen.md
R83, spec/60_exceptions.md R123, R125, R132). -/

namespace Sys2Proof.Machine

/-- In a faulted state every command is answered with the recorded cause (R125). -/
theorem exec_faulted {s : State} (h : s.fault = true) (i : Instr) : exec i s = .next (s.respond s.cause 0) := by
  cases i with
  | tgen | trd _ | init | upd _ | fin => exact congrArg _ (commandFrame_faulted h _)

/-- With the budget exhausted every command raises `BudgetExceeded` (R132). -/
theorem exec_budgetExceeded {s : State} (h : s.fault = false) (hb : budgetExhausted s = true) (i : Instr) :
    exec i s = .next (s.raise .budgetExceeded) := by
  cases i with
  | tgen | trd _ | init | upd _ | fin => exact congrArg _ (commandFrame_exhausted h hb _)

/-- Every command makes the common checks of R123. -/
theorem commonChecks (i : Instr) : CommonChecks i := by
  refine ⟨fun s hf => exec_faulted hf i, fun s N hf hN hle => ⟨_, ?_, faultedFrom_raise _ _⟩⟩
  exact exec_budgetExceeded hf ((budgetExhausted_iff s).mpr ⟨N, hN, hle⟩) i

/-- Every command has a next state: no arm of `exec` faults or refuses. -/
theorem exec_total (i : Instr) (s : State) : ∃ s', exec i s = .next s' := by
  cases i with
  | tgen | trd _ | init | upd _ | fin => exact ⟨_, rfl⟩

/-- Settles O10. -/
theorem everyStepAnswersANextState : Obligations.EveryStepAnswersANextState :=
  ⟨step_total, exec_total⟩

end Sys2Proof.Machine
end

section
/-! The generator's functions (spec/40_table_gen.md R80 to R84): `bitstep` is linear and injective, so `tableEntry` is,
being `bitstep` iterated on the widened index. -/

namespace Sys2Proof.Machine

/-! ### One bit step (R80) -/

theorem bitstep_of_lsb_one {c : Word} (h : c.getLsbD 0 = true) : bitstep c = (c >>> 1) ^^^ Config.POLY := if_pos h

theorem bitstep_of_lsb_zero {c : Word} (h : c.getLsbD 0 = false) : bitstep c = c >>> 1 :=
  if_neg (Bool.eq_false_iff.mp h)

/-- The form without a branch: the bit shifted out, spread over the word, masks `POLY`. -/
theorem bitstep_eq_xor_mask (c : Word) :
    bitstep c = (c >>> 1) ^^^ (Config.POLY &&& (if c.getLsbD 0 then 0xFFFFFFFF else 0x00000000)) := by
  cases h : c.getLsbD 0 with
  | false => rw [bitstep_of_lsb_zero h]; simp
  | true => rw [bitstep_of_lsb_one h]; rfl

/-- Shifting is linear, and `POLY` enters exactly as often as a 1 is shifted out. -/
theorem bitstep_xor (x y : Word) : bitstep (x ^^^ y) = bitstep x ^^^ bitstep y := by
  have hlsb : (x ^^^ y).getLsbD 0 = (x.getLsbD 0 ^^ y.getLsbD 0) := BitVec.getLsbD_xor
  have hshift : (x ^^^ y) >>> 1 = x >>> 1 ^^^ y >>> 1 := BitVec.ushiftRight_xor_distrib x y 1
  cases hx : x.getLsbD 0 <;> cases hy : y.getLsbD 0 <;> rw [hx, hy] at hlsb
  · rw [bitstep_of_lsb_zero hlsb, bitstep_of_lsb_zero hx, bitstep_of_lsb_zero hy, hshift]
  · rw [bitstep_of_lsb_one hlsb, bitstep_of_lsb_zero hx, bitstep_of_lsb_one hy, hshift, BitVec.xor_assoc]
  · rw [bitstep_of_lsb_one hlsb, bitstep_of_lsb_one hx, bitstep_of_lsb_zero hy, hshift]
    ac_rfl
  · rw [bitstep_of_lsb_zero hlsb, bitstep_of_lsb_one hx, bitstep_of_lsb_one hy, hshift]
    rw [BitVec.xor_comm (y >>> 1), BitVec.xor_assoc, ← BitVec.xor_assoc Config.POLY, BitVec.xor_self, BitVec.zero_xor]

/-- The bit shifted out comes back as the top bit, since the shift clears it and `POLY` has it set. -/
theorem getLsbD_top_bitstep (c : Word) : (bitstep c).getLsbD 31 = c.getLsbD 0 := by
  have hshift : (c >>> 1).getLsbD 31 = false := by simp
  cases h : c.getLsbD 0 with
  | false => rwa [bitstep_of_lsb_zero h]
  | true => rw [bitstep_of_lsb_one h, BitVec.getLsbD_xor, hshift]; rfl

/-- A word is its lowest bit and what a shift leaves of it. -/
theorem eq_of_lsb_of_shift {x y : Word} (h0 : x.getLsbD 0 = y.getLsbD 0) (hs : x >>> 1 = y >>> 1) : x = y := by
  apply BitVec.eq_of_getLsbD_eq
  rintro (_ | k) _
  · exact h0
  · simpa [Nat.add_comm] using congrArg (·.getLsbD k) hs

theorem bitstep_injective : Function.Injective bitstep := by
  intro x y h
  have h0 : x.getLsbD 0 = y.getLsbD 0 := by rw [← getLsbD_top_bitstep x, h, getLsbD_top_bitstep]
  have hs : x >>> 1 = y >>> 1 := by
    rw [bitstep_eq_xor_mask, bitstep_eq_xor_mask, h0] at h
    exact (BitVec.xor_left_inj _).mp h
  exact eq_of_lsb_of_shift h0 hs

/-! ### Table entries (R81, R82) -/

theorem bitsteps_xor (n : Nat) (x y : Word) : bitsteps n (x ^^^ y) = bitsteps n x ^^^ bitsteps n y := by
  induction n generalizing x y with
  | zero => rfl
  | succ n ih => rw [bitsteps, bitstep_xor, ih, bitsteps, bitsteps]

theorem bitsteps_injective (n : Nat) : Function.Injective (bitsteps n) := by
  induction n with
  | zero => exact fun _ _ h => h
  | succ n ih => exact ih.comp bitstep_injective

theorem zext32_injective : Function.Injective zext32 :=
  Function.LeftInverse.injective (g := BitVec.setWidth 8) fun i =>
    (BitVec.setWidth_setWidth_of_le i (by decide)).trans (BitVec.setWidth_eq i)

theorem tableEntry_xor (a b : Byte) : tableEntry (a ^^^ b) = tableEntry a ^^^ tableEntry b := by
  rw [tableEntry, zext32, BitVec.setWidth_xor, bitsteps_xor]
  rfl

theorem tableEntry_injective : Function.Injective tableEntry :=
  (bitsteps_injective Config.NSTEP).comp zext32_injective

@[simp] theorem length_table : table.length = Config.NENT := by rw [table, List.length_map, List.length_range]

theorem getElem?_table (i : Byte) : table[i.toNat]? = some (tableEntry i) := by
  rw [table, List.getElem?_map, List.getElem?_range (index_lt i), Option.map_some, BitVec.ofNat_toNat,
    BitVec.setWidth_eq]

/-! ### The obligations -/

/-- Settles O34: the branch-free form, linearity and injectivity hold of all values; the other clauses are fixed
values. -/
theorem tableEntriesAreLinearAndDistinct : Obligations.TableEntriesAreLinearAndDistinct := by
  refine ⟨bitstep_eq_xor_mask, ?_, ?_, bitstep_xor, tableEntry_xor, ?_, ?_, ?_, tableEntry_injective⟩ <;> decide

/-- Settles O31: the two cases of the definition and five fixed values. -/
theorem bitstepIsOneDivisionStep : Obligations.BitstepIsOneDivisionStep := by
  refine ⟨fun _ => bitstep_of_lsb_one, fun _ => bitstep_of_lsb_zero, ?_⟩
  decide

/-- Settles O32: the count of steps is the constant 8, so the definition unrolls for every index alike. -/
theorem tableEntryIsEightBitSteps : Obligations.TableEntryIsEightBitSteps :=
  ⟨fun _ => rfl, by decide⟩

/-- Settles O33. -/
theorem tableIsEveryEntryInPlace : Obligations.TableIsEveryEntryInPlace :=
  ⟨length_table, getElem?_table⟩

end Sys2Proof.Machine
end

section
/-! The commands `TGEN` and `TRD` (spec/40_table_gen.md R85, R86). -/

namespace Sys2Proof.Machine

/-- A word with the opcode of a command without operand and a non-zero argument is illegal (R64). -/
theorem decode_nonZeroArg {op a : Byte} (hop : op = 0x00 ∨ op = 0x02 ∨ op = 0x04) (ha : a ≠ 0) :
    decode (op ++ a) = .error .nonZeroArg := by
  rw [decode, Laws.cmdOp_append, Laws.cmdArg_append]
  rcases hop with rfl | rfl | rfl
  · exact if_neg ha
  · exact if_neg ha
  · exact if_neg ha

/-! ### The table store after `TGEN` -/

/-- Filling a canonical store with the entries makes every entry right, whatever the store held. -/
theorem fill_holdsTable {m : Memory} (h : m.wf = true) : (m.fill tableEntry Config.NENT).holdsTable :=
  Memory.read_fill_all h tableEntry

/-- Filling again changes nothing, since a canonical store is determined by what it reads as. -/
theorem fill_of_holdsTable {m : Memory} (h : m.wf = true) (ht : m.holdsTable) : m.fill tableEntry Config.NENT = m :=
  Memory.eq_of_read (Memory.wf_fill h _ _) h fun i => (fill_holdsTable h i).trans (ht i).symm

/-- Generating a table that is already valid changes nothing. -/
theorem genTable_eq_self {s : State} (h : s.Inv) (htv : s.tv = true) : genTable s = s := by
  rw [genTable, fill_of_holdsTable h.canonical (h.tableRight htv), ← htv]

/-! ### The commands in a ready state -/

theorem exec_tgen_ready {s : State} (h : s.ready) : exec .tgen s = .next ((genTable s).completedWith 0) :=
  exec_completes h nofun nofun

theorem exec_trd_ready {s : State} (h : s.ready) (htv : s.tv = true) (i : Byte) :
    exec (.trd i) s = .next (s.completedWith (s.t.read i)) :=
  exec_completes h (fun _ => htv) nofun

/-! ### The obligations -/

/-- Settles O16: in a ready state `TGEN` fills the store, whose canonical form makes every entry right and a repeated
`TGEN` idle. -/
theorem tgenBuildsTheTable : Obligations.TgenBuildsTheTable := by
  refine ⟨decode_encode .tgen, fun a ha => decode_nonZeroArg (.inl rfl) ha, commonChecks .tgen, ?_, ?_, ?_⟩
  · intro s hready hwf
    exact ⟨_, Memory.wf_fill hwf _ _, fill_holdsTable hwf, exec_tgen_ready hready⟩
  · intro s hready hinv htv
    rw [exec_tgen_ready hready, genTable_eq_self hinv htv]
  · have hready : State.reset.ready := ⟨rfl, rfl⟩
    have htable := fill_holdsTable (resetWith_wf none)
    exact ⟨_, exec_tgen_ready hready, rfl, (htable 0).trans (by decide), (htable 1).trans (by decide),
      (htable 255).trans (by decide), rfl⟩

/-- Settles O17. -/
theorem trdReadsTheEntry : Obligations.TrdReadsTheEntry := by
  refine ⟨fun i => ⟨?_, commonChecks _⟩, fun _ i hready htv => exec_trd_ready hready htv i, ?_, ?_,
    by decide, by decide⟩
  · rw [← encode_trd, decode_encode]
  · intro s i hready hinv htv
    rw [exec_trd_ready hready htv, hinv.tableRight htv i]
  · intro s i hready htv
    exact ⟨_, exec_tableNotReady hready rfl htv, faultedFrom_raise _ _⟩

end Sys2Proof.Machine
end

section
/-! The engine's functions (spec/41_engine.md R100 to R103, R110): the index of `update`, and `crc32` of a sequence from
`crc32` of its first bytes. -/

namespace Sys2Proof.Machine

/-! ### One byte (R100) -/

/-- The mask keeps bits 7 to 0 only, and those of the widened byte are the byte. -/
theorem updIndex_eq (r : Word) (b : Byte) : updIndex r b = r.setWidth 8 ^^^ b := by
  have hmask : Config.IDXMASK.setWidth 8 = BitVec.allOnes 8 := rfl
  rw [updIndex, zext32, BitVec.setWidth_and, hmask, BitVec.and_allOnes, BitVec.setWidth_xor,
    BitVec.setWidth_setWidth_of_le b (by decide), BitVec.setWidth_eq]

theorem update_eq (r : Word) (b : Byte) : update r b = (r >>> 8) ^^^ tableEntry (r.setWidth 8 ^^^ b) := by
  rw [update, updateWith, updIndex_eq]

/-! ### The checksum (R101) -/

/-- The final complement is undone by another one, so `crc32` of the first bytes gives the register after them. -/
theorem foldl_update_eq_crc32_xor (p : List Byte) : p.foldl update Config.RINIT = crc32 p ^^^ Config.XOROUT := by
  rw [crc32, BitVec.xor_assoc, BitVec.xor_self, BitVec.xor_zero]

theorem crc32_append (p x : List Byte) :
    crc32 (p ++ x) = x.foldl update (crc32 p ^^^ Config.XOROUT) ^^^ Config.XOROUT := by
  rw [crc32, List.foldl_append, foldl_update_eq_crc32_xor]

/-- The register's top byte, emptied by the shift, is all the complement leaves of the constants. -/
theorem crc32_singleton (v : Byte) : crc32 [v] = tableEntry (v ^^^ 0xFF) ^^^ 0xFF000000 := by
  have hconst : (Config.RINIT >>> 8) ^^^ Config.XOROUT = 0xFF000000 := by decide
  calc crc32 [v]
    _ = (Config.RINIT >>> 8) ^^^ tableEntry (0xFF ^^^ v) ^^^ Config.XOROUT :=
        congrArg (· ^^^ Config.XOROUT) (update_eq Config.RINIT v)
    _ = tableEntry (v ^^^ 0xFF) ^^^ ((Config.RINIT >>> 8) ^^^ Config.XOROUT) := by
        rw [BitVec.xor_comm 0xFF v]
        ac_rfl
    _ = tableEntry (v ^^^ 0xFF) ^^^ 0xFF000000 := by rw [hconst]

/-! ### The obligations -/

/-- Settles O35: the definition, and three fixed values. -/
theorem updateFoldsOneByte : Obligations.UpdateFoldsOneByte :=
  ⟨fun _ _ => rfl, by decide, by decide, by decide⟩

/-- Settles O36: one byte more is a continuation of length one; the source's sentence is evaluated. -/
theorem crc32FoldsTheBytesInOrder : Obligations.Crc32FoldsTheBytesInOrder :=
  ⟨fun _ => rfl, fun bytes b => crc32_append bytes [b], by decide +kernel⟩

/-- Settles O37: the index, single bytes and continuations for all values; the other clauses are fixed values. -/
theorem crc32Properties : Obligations.Crc32Properties := by
  refine ⟨update_eq, ?_, ?_, ?_, crc32_singleton, ?_, ?_, ?_, crc32_append⟩ <;> decide +kernel

end Sys2Proof.Machine
end

section
/-! The commands `INIT`, `UPD` and `FIN` (spec/41_engine.md R105 to R107, R109). -/

namespace Sys2Proof.Machine

/-! ### The budget of several commands (R132) -/

theorem State.budgetFor.mono {s : State} {m n : Nat} (hb : s.budgetFor n) (hle : m ≤ n) : s.budgetFor m :=
  fun N hN => (Nat.add_le_add_left hle s.ops).trans (hb N hN)

theorem ready_of_budgetFor {s : State} {n : Nat} (hf : s.fault = false) (hb : s.budgetFor (n + 1)) : s.ready :=
  ⟨hf, (budgetFor_one_iff s).mp (hb.mono (Nat.le_add_left 1 n))⟩

/-- A command that completes uses up one of the commands that fit in the budget. -/
theorem completed_budgetFor {s : State} {n : Nat} (hb : s.budgetFor (n + 1)) (i : Instr) :
    (completed i s).budgetFor n := by
  intro N hN
  have := hb N (by simpa using hN)
  simp only [completed_ops]
  omega

/-- With budget for two commands the state after the first is ready for the second. -/
theorem completed_ready {s : State} (h : s.ready) (hb : s.budgetFor 2) (i : Instr) : (completed i s).ready :=
  ready_of_budgetFor ((completed_fault i s).trans h.1) (completed_budgetFor hb i)

/-! ### The commands in a ready state -/

section
variable {s : State} (h : s.ready)
include h

theorem exec_init_ready : exec .init s = .next { s.completedWith 0 with r := 0xFFFFFFFF, co := true } :=
  exec_completes h nofun nofun

theorem exec_upd_ready (htv : s.tv = true) (hco : s.co = true) (b : Byte) :
    exec (.upd b) s = .next { s.completedWith 0 with r := updateWith s.t.read s.r b } :=
  exec_completes h (fun _ => htv) fun _ => hco

theorem exec_fin_ready (hco : s.co = true) : exec .fin s = .next (completed .fin s) :=
  exec_completes h nofun fun _ => hco

theorem exec_upd_noOpenCall (htv : s.tv = true) (hco : s.co = false) (b : Byte) :
    ∃ s', exec (.upd b) s = .next s' ∧ s.faultedFrom .noOpenCall s' :=
  ⟨_, exec_noOpenCall h (fun _ => htv) rfl hco, faultedFrom_raise _ _⟩

theorem exec_fin_noOpenCall (hco : s.co = false) : ∃ s', exec .fin s = .next s' ∧ s.faultedFrom .noOpenCall s' :=
  ⟨_, exec_noOpenCall h nofun rfl hco, faultedFrom_raise _ _⟩

end

/-- Over a right table `UPD` folds as the function `update` does. -/
theorem updateWith_read {m : Memory} (h : m.holdsTable) (r : Word) (b : Byte) : updateWith m.read r b = update r b := by
  rw [update, updateWith, updateWith, h]

/-! ### The obligations -/

/-- Settles O18. -/
theorem initOpensACall : Obligations.InitOpensACall :=
  ⟨decode_encode .init, fun _ ha => decode_nonZeroArg (.inr (.inl rfl)) ha, commonChecks .init,
    fun _ hready => exec_init_ready hready⟩

/-- Settles O39: what `INIT` leads to does not mention the register or whether a call was open. -/
theorem initForgetsEarlierCalls : Obligations.InitForgetsEarlierCalls := by
  intro s x y p q hready
  exact ⟨{ s.completedWith 0 with r := 0xFFFFFFFF, co := true },
    exec_init_ready (s := { s with r := x, co := p }) hready, exec_init_ready (s := { s with r := y, co := q }) hready⟩

/-- Settles O19: under the invariant the table that is read is the right one. -/
theorem updFoldsTheByte : Obligations.UpdFoldsTheByte := by
  refine ⟨fun b => ⟨?_, commonChecks _⟩, fun s b hready htv hco => exec_upd_ready hready htv hco b, ?_, ?_,
    fun s b hready htv hco => exec_upd_noOpenCall hready htv hco b, by decide⟩
  · rw [← encode_upd, decode_encode]
  · intro s b hready hinv htv hco
    rw [exec_upd_ready hready htv hco, updateWith_read (hinv.tableRight htv)]
  · intro s b hready htv
    exact ⟨_, exec_tableNotReady hready rfl htv, faultedFrom_raise _ _⟩

/-- Settles O20: `FIN` needs and closes a call, so directly after it another `FIN` or an `UPD` finds none. -/
theorem finDeliversTheChecksum : Obligations.FinDeliversTheChecksum := by
  refine ⟨decode_encode .fin, fun a ha => decode_nonZeroArg (.inr (.inr rfl)) ha, commonChecks .fin,
    fun s hready hco => ⟨_, _, exec_fin_ready hready hco⟩, fun s hready hco => exec_fin_noOpenCall hready hco,
    ?_, ?_, ?_⟩
  · intro s hready hb
    have hinit : exec .init s = .next (completed .init s) := exec_completes hready nofun nofun
    have hempty : responseData .fin (completed .init s) = 0 := BitVec.xor_self
    refine ⟨_, _, hinit, exec_fin_ready (completed_ready hready hb .init) rfl, ?_⟩
    rw [completed_responses, completed_responses, hempty, List.append_assoc]
    rfl
  · intro s s' hready hb hco hexec
    obtain rfl : completed .fin s = s' := Host.Outcome.next.inj ((exec_fin_ready hready hco).symm.trans hexec)
    have hready' : (completed .fin s).ready := completed_ready hready hb .fin
    exact ⟨exec_fin_noOpenCall hready' rfl, fun b htv => exec_upd_noOpenCall hready' htv rfl b⟩
  · intro s hready hco hr
    have hdata : responseData .fin s = 0xE8B7BE43 := by
      rw [responseData, hr]
      decide
    exact ⟨_, exec_fin_ready hready hco, rfl, by rw [completed_responses, hdata]⟩

end Sys2Proof.Machine
end

section
/-! A whole call (spec/41_engine.md R108): every command in it completes, and the register of the open call is the fold
of the bytes presented so far. -/

namespace Sys2Proof.Machine

/-! ### Runs in which every command completes -/

/-- The `n` steps from `s` to `s'` each complete a command: they are counted, and answered with status 0. -/
structure State.CompletesIn (s : State) (n : Nat) (s' : State) : Prop where
  run : runSteps n s = .next s'
  /-- No fault was recorded. -/
  fault : s'.fault = false
  budget : s'.budget = s.budget
  /-- `OPS` counts completed commands (R27). -/
  ops : s'.ops = s.ops + n
  /-- One response per command, each `OK` (R66). -/
  responses : ∃ rs, s'.responses = s.responses ++ rs ∧ rs.length = n ∧ ∀ res ∈ rs, res.status = 0

theorem State.CompletesIn.refl {s : State} (hf : s.fault = false) : s.CompletesIn 0 s where
  run := rfl
  fault := hf
  budget := rfl
  ops := rfl
  responses := ⟨[], (List.append_nil _).symm, rfl, nofun⟩

theorem State.CompletesIn.trans {s u v : State} {m n : Nat} (h : s.CompletesIn m u) (h' : u.CompletesIn n v) :
    s.CompletesIn (m + n) v := by
  obtain ⟨rs, hrs, hlen, hok⟩ := h.responses
  obtain ⟨rs', hrs', hlen', hok'⟩ := h'.responses
  refine ⟨(runSteps_add h.run).trans h'.run, h'.fault, h'.budget.trans h.budget, ?_, rs ++ rs', ?_, ?_, ?_⟩
  · rw [h'.ops, h.ops, Nat.add_assoc]
  · rw [hrs', hrs, List.append_assoc]
  · rw [List.length_append, hlen, hlen']
  · exact fun res hres => (List.mem_append.mp hres).elim (hok res) (hok' res)

theorem State.CompletesIn.budgetFor {s s' : State} {m n : Nat} (h : s.CompletesIn m s') (hb : s.budgetFor (m + n)) :
    s'.budgetFor n := by
  intro N hN
  have := hb N (h.budget ▸ hN)
  have := h.ops
  omega

theorem presenting_append (cmds cmds' : List Instr) : presenting (cmds ++ cmds') = presenting cmds ++ presenting cmds' :=
  List.map_append

/-- A presented command whose needs are met completes in one step. -/
theorem step_completes {s : State} {i : Instr} {rest : List HostMove} (hp : s.presents (encode i) rest)
    (hready : s.ready) (ht : needsTable i = true → s.tv = true) (hc : needsCall i = true → s.co = true) :
    step s = .next (completed i (s.taken rest)) :=
  (step_command hp (decode_encode i)).trans (exec_completes hready ht hc)

theorem completesIn_one {s : State} {i : Instr} {rest : List HostMove} (hp : s.presents (encode i) rest)
    (hready : s.ready) (ht : needsTable i = true → s.tv = true) (hc : needsCall i = true → s.co = true) :
    s.CompletesIn 1 (completed i (s.taken rest)) where
  run := runSteps_succ 0 (step_completes hp hready ht hc)
  fault := (completed_fault i _).trans hready.1
  budget := completed_budget i _
  ops := completed_ops i _
  responses := ⟨[⟨0, responseData i (s.taken rest)⟩], completed_responses i _, rfl, by simp⟩

/-! ### The commands between `INIT` and `FIN` -/

/-- A command inside a call finds the table it needs, leaves the call open, and takes the register one byte on if it is
an `UPD`; what follows it is the rest of a call. -/
theorem callBody_cons {i : Instr} {cmds : List Instr} {s : State} (hinv : s.Inv)
    (hbody : callBody s.tv (i :: cmds) = true) :
    (needsTable i = true → s.tv = true) ∧ callBody (completed i s).tv cmds = true ∧ (completed i s).co = s.co ∧
    (bytesOf cmds).foldl update (completed i s).r = (bytesOf (i :: cmds)).foldl update s.r := by
  cases i with
  | tgen => exact ⟨nofun, hbody, rfl, rfl⟩
  | trd k =>
    obtain ⟨htv, hcmds⟩ := Bool.and_eq_true_iff.mp hbody
    exact ⟨fun _ => htv, hcmds, rfl, rfl⟩
  | init => cases hbody
  | upd b =>
    obtain ⟨htv, hcmds⟩ := Bool.and_eq_true_iff.mp hbody
    have hr : (completed (.upd b) s).r = update s.r b := updateWith_read (hinv.tableRight htv) s.r b
    exact ⟨fun _ => htv, hcmds, rfl, by rw [hr]; rfl⟩
  | fin => cases hbody

/-- The body of a call, by induction on its commands: it completes, the call stays open, and the register is the fold of
the bytes. -/
theorem completesIn_callBody {body : List Instr} {s : State} {moves : List HostMove} (hinv : s.Inv)
    (hf : s.fault = false) (hco : s.co = true) (hbody : callBody s.tv body = true) (hb : s.budgetFor body.length)
    (hin : s.inputs = presenting body ++ moves) :
    ∃ s', s.CompletesIn body.length s' ∧ s'.inputs = moves ∧ s'.co = true ∧
      s'.r = (bytesOf body).foldl update s.r := by
  induction body generalizing s with
  | nil => exact ⟨s, .refl hf, hin, hco, rfl⟩
  | cons i cmds ih =>
    let rest := presenting cmds ++ moves
    have hready : s.ready := ready_of_budgetFor hf hb
    obtain ⟨ht, hcmds, hco', hr'⟩ := callBody_cons (s := s.taken rest) (hinv.taken _) hbody
    have hone := completesIn_one (rest := rest) hin hready ht fun _ => hco
    obtain ⟨s', hrun, hin', hco'', hr⟩ := ih ((hinv.taken rest).completed hready ht) hone.fault (hco'.trans hco) hcmds
      (completed_budgetFor (s := s.taken rest) hb i) (completed_inputs i _)
    refine ⟨s', ?_, hin', hco'', hr.trans hr'⟩
    rw [List.length_cons, Nat.add_comm]
    exact hone.trans hrun

/-! ### The obligation -/

/-- Settles O38: `INIT` completes and opens the call with the register at `RINIT`, the body folds its bytes into it, and
`FIN` answers the complement. -/
theorem callDeliversCrc32OfItsBytes : Obligations.CallDeliversCrc32OfItsBytes := by
  intro s body rest hinv hf hbody hb hin
  let moves := presenting body ++ (.command (encode .fin) :: rest)
  let opened := completed .init (s.taken moves)
  have hp : s.presents (encode .init) moves := by
    rw [State.presents, hin, presenting_append, List.append_assoc]
    rfl
  have hready : s.ready := ready_of_budgetFor hf hb
  have hinit : s.CompletesIn 1 opened := completesIn_one hp hready nofun nofun
  have hbopen : opened.budgetFor (body.length + 1) := completed_budgetFor (s := s.taken moves) hb .init
  obtain ⟨u, hu, hp', hco, hr⟩ := completesIn_callBody (s := opened) ((hinv.taken moves).completed hready nofun)
    hinit.fault rfl hbody (hbopen.mono (Nat.le_succ _)) rfl
  have hstep := step_completes hp' (ready_of_budgetFor hu.fault (hu.budgetFor hbopen)) nofun fun _ => hco
  obtain ⟨hrun, hfault, _, hops, rs, hrs, hlen, hok⟩ := hinit.trans hu
  have hdata : responseData .fin (u.taken rest) = crc32 (bytesOf body) := congrArg (· ^^^ Config.XOROUT) hr
  refine ⟨completed .fin (u.taken rest), rs, ?_, ?_, ?_, hok, rfl, hfault, rfl, ?_⟩
  · rw [← Nat.add_comm 1, ← Nat.add_assoc]
    exact (runSteps_add hrun).trans (runSteps_succ 0 hstep)
  · rw [completed_responses, hdata, State.taken_responses, hrs]
  · rw [hlen, Nat.add_comm]
  · rw [completed_ops, State.taken_ops, hops]
    omega

end Sys2Proof.Machine
end

section
/-! Fault entry, the faulted state and the ceiling (spec/60_exceptions.md R121 to R125, R132): which check decides about
a presented word, and that a recorded fault answers every later word. -/

namespace Sys2Proof.Machine

/-! ### The first two checks on a presented word -/

/-- A recorded fault answers any word, legal or illegal, and changes nothing (R125). -/
theorem step_faulted {s : State} {cw : CmdWord} {rest : List HostMove} (hf : s.fault = true)
    (hp : s.presents cw rest) : step s = .next ((s.taken rest).respond s.cause 0) := by
  rcases presents_cases hp with ⟨_, hstep⟩ | ⟨_, hf', _⟩ | ⟨_, hr, _⟩
  · exact hstep
  · cases hf.symm.trans hf'
  · cases hf.symm.trans hr.1

/-- An exhausted budget faults any word, legal or illegal (R132). -/
theorem step_budgetExceeded {s : State} {cw : CmdWord} {rest : List HostMove} (hf : s.fault = false)
    (hb : budgetExhausted s = true) (hp : s.presents cw rest) :
    step s = .next ((s.taken rest).raise .budgetExceeded) := by
  rcases presents_cases hp with ⟨hf', _⟩ | ⟨c, _, hc, hstep⟩ | ⟨_, hr, _⟩
  · cases hf.symm.trans hf'
  · rwa [hc.mpr hb] at hstep
  · cases hb.symm.trans hr.2

/-! ### Why a fault is taken -/

/-- The kind of state and word in which each fault is raised (R122, R123 steps 2 to 5). -/
def Cause.RaisedBy (s : State) (cw : CmdWord) : Cause → Prop
  | .illegalCommand => ∃ e, decode cw = .error e
  | .tableNotReady => s.tv = false ∧ ∃ i, decode cw = .ok i ∧ needsTable i = true
  | .noOpenCall => s.co = false ∧ ∃ i, decode cw = .ok i ∧ needsCall i = true
  | .budgetExceeded => ∃ N, s.budget = some N ∧ N ≤ s.ops

/-- A word that leaves the block without a recorded fault faulted has raised one of the four, in its kind of state. -/
theorem presents_raises {s s' : State} {cw : CmdWord} {rest : List HostMove} (hp : s.presents cw rest)
    (hf : s.fault = false) (hstep : step s = .next s') (hf' : s'.fault = true) :
    ∃ c : Cause, s' = (s.taken rest).raise c ∧ c.RaisedBy s cw := by
  have next_eq {u : State} (hu : step s = .next u) : s' = u := Host.Outcome.next.inj (hstep.symm.trans hu)
  rcases Bool.eq_false_or_eq_true (budgetExhausted s) with hb | hb
  · exact ⟨_, next_eq (step_budgetExceeded hf hb hp), (budgetExhausted_iff s).mp hb⟩
  rcases hd : decode cw with e | i
  · rw [step_illegal hp hd, rejectWord_ready (s := s.taken rest) ⟨hf, hb⟩] at next_eq
    exact ⟨_, next_eq rfl, e, hd⟩
  · rw [step_command hp hd] at next_eq
    rcases exec_cases i (s.taken rest) with
      ⟨h, _⟩ | ⟨_, h, _⟩ | ⟨_, hn, htv, hu⟩ | ⟨_, _, hn, hco, hu⟩ | ⟨_, _, _, hu⟩
    · cases hf.symm.trans h
    · cases hb.symm.trans h
    · exact ⟨_, next_eq hu, htv, i, hd, hn⟩
    · exact ⟨_, next_eq hu, hco, i, hd, hn⟩
    · rw [next_eq hu, completed_fault] at hf'
      cases hf.symm.trans hf'

/-- Only a presented word takes the block into the faulted state: waiting and reset do not (R124). -/
theorem presents_of_step_faults {s s' : State} (hf : s.fault = false) (hstep : step s = .next s')
    (hf' : s'.fault = true) : ∃ cw rest, s.presents cw rest := by
  rcases step_next hstep with ⟨_, rfl⟩ | ⟨_, _, rfl⟩ | ⟨cw, rest, hp, _⟩
  · cases hf.symm.trans hf'
  · cases hf'
  · exact ⟨cw, rest, hp⟩

/-- Fault code 4 is `BudgetExceeded`'s alone (R121). -/
theorem code_eq_budgetExceeded_iff (c : Cause) : c.code = Cause.budgetExceeded.code ↔ c = .budgetExceeded := by
  cases c with
  | illegalCommand | tableNotReady | noOpenCall | budgetExceeded => decide

/-- The codes 5 to 7 and the status `OK` are no cause (R121). -/
theorem code_bounds (c : Cause) : 1 ≤ c.code.toNat ∧ c.code.toNat ≤ 4 := by
  cases c with
  | illegalCommand | tableNotReady | noOpenCall | budgetExceeded => decide

/-! ### The obligations -/

/-- Settles O14, by induction on the number of steps: each word adds one answer, and with none left the block waits. -/
theorem faultedBlockOnlyAnswersItsCause : Obligations.FaultedBlockOnlyAnswersItsCause := by
  intro n s hf hwords
  induction n generalizing s with
  | zero => simp [runSteps]
  | succ n ih =>
    rcases hin : s.inputs with _ | ⟨_ | cw, rest⟩
    · rw [runSteps_idle _ hin]
      simp only [List.drop_nil, List.take_nil, List.length_nil, List.replicate_zero, List.append_nil]
      rw [← hin]
    · exact absurd rfl (hwords .reset (by simp [hin]))
    · have hrest : ∀ m ∈ rest.take n, m ≠ .reset := fun m hm => hwords m (by simp [hin, hm])
      rw [runSteps_succ n (step_faulted hf hin), ih ((s.taken rest).respond s.cause 0) hf hrest]
      simp [State.respond, State.taken, List.replicate_succ]

/-- Settles O12: the clauses are the branches of the frame, in its order. -/
theorem firstFailingCheckDecides : Obligations.FirstFailingCheckDecides := by
  refine fun s cw rest hp => ⟨fun hf => step_faulted hf hp, fun N hf hN hle => ?_, fun e hr hd => ?_,
    fun i hr hd hn htv => ?_, fun i hr hd ht hn hco => ?_, fun i hr hd ht hc => ?_⟩
  · have hb : budgetExhausted s = true := (budgetExhausted_iff s).mpr ⟨N, hN, hle⟩
    exact ⟨_, step_budgetExceeded hf hb hp, faultedFrom_raise _ _⟩
  · exact illegalWordsRaiseIllegalCommand.2 s cw rest e hr hp hd
  · exact ⟨_, (step_command hp hd).trans (exec_tableNotReady hr hn htv), faultedFrom_raise _ _⟩
  · exact ⟨_, (step_command hp hd).trans (exec_noOpenCall hr ht hn hco), faultedFrom_raise _ _⟩
  · exact ⟨_, (step_command hp hd).trans (exec_completes hr ht hc), by simpa using hr.1, by simp, by simp, by simp⟩

/-- Settles O13: fault entry is `State.raise`, and a step that faults raised the cause of its kind of state. -/
theorem faultEntryDoesExactlyThis : Obligations.FaultEntryDoesExactlyThis := by
  refine ⟨faultedFrom_raise, rfl, rfl, rfl, rfl, rfl, code_bounds, fun s s' hf hstep hf' => ?_⟩
  obtain ⟨cw, rest, hp⟩ := presents_of_step_faults hf hstep hf'
  obtain ⟨c, rfl, hc⟩ := presents_raises hp hf hstep hf'
  refine ⟨cw, rest, c, hp, faultedFrom_raise _ _, ?_, ?_, ?_, ?_⟩ <;>
  · rintro rfl
    exact hc

/-- Settles O15: the cause of a raised fault is `BudgetExceeded` exactly with the budget exhausted, and a command that
completes has budget left. -/
theorem budgetExceededExactlyAtTheCeiling : Obligations.BudgetExceededExactlyAtTheCeiling := by
  intro s cw rest hf hp
  simp only [← budgetExhausted_iff]
  rcases presents_cases hp with ⟨hf', _⟩ | ⟨c, _, hc, hstep⟩ | ⟨i, hr, _, _, _, hstep⟩
  · cases hf.symm.trans hf'
  · refine ⟨_, hstep, ?_⟩
    rw [← hc, State.raise_cause, code_eq_budgetExceeded_iff]
    exact and_iff_right rfl
  · exact ⟨_, hstep, by simp [hf, hr.2]⟩

end Sys2Proof.Machine
end

section
/-! A full computation under a ceiling (spec/60_exceptions.md R132): `TGEN`, `INIT`, one `UPD` per byte, `FIN`. With
budget for all of it the run is `TGEN` and a whole call; with less the budget runs out before `FIN`. -/

namespace Sys2Proof.Machine

/-! ### The commands of a computation -/

theorem bytesOf_map_upd (bytes : List Byte) : bytesOf (bytes.map .upd) = bytes := by
  induction bytes with
  | nil => rfl
  | cons b bytes ih => exact congrArg (b :: ·) ih

theorem callBody_map_upd (bytes : List Byte) : callBody true (bytes.map .upd) = true := by
  induction bytes with
  | nil => rfl
  | cons b bytes ih => exact ih

theorem ne_reset_of_mem_presenting {cmds : List Instr} {m : HostMove} (hm : m ∈ presenting cmds) : m ≠ .reset := by
  obtain ⟨i, _, rfl⟩ := List.mem_map.mp hm
  nofun

/-- A run whose last word, a `FIN`, is the only one to carry an output has that word's data as its output (R145). -/
theorem runOutputs_concat_fin {cmds : List Instr} {rs : List Response} (hlen : rs.length = cmds.length)
    (hno : ∀ i ∈ cmds, isOutput (encode i) = false) (d : Word) :
    runOutputs ((cmds ++ [.fin] : List Instr).map encode) (rs ++ [⟨0, d⟩]) = [d] := by
  have hnone : ((cmds.map encode).zip rs).filter (fun p => isOutput p.1) = [] := by
    refine List.filter_eq_nil_iff.mpr fun p hp => ?_
    obtain ⟨i, hi, hword⟩ := List.mem_map.mp (List.of_mem_zip hp).1
    rw [← hword, hno i hi]
    exact Bool.false_ne_true
  have hfin : isOutput (encode Instr.fin) = true := rfl
  rw [runOutputs, List.map_append, List.zip_append (by rw [List.length_map, hlen]), List.filter_append, hnone]
  simp [hfin]

/-- No command of a computation before its `FIN` carries an output. -/
theorem isOutput_before_fin (bytes : List Byte) :
    ∀ i ∈ ([.tgen, .init] ++ bytes.map .upd : List Instr), isOutput (encode i) = false := by
  have hupd (b : Byte) : isOutput (encode (.upd b)) = false := by rw [isOutput, decode_encode]
  refine List.forall_mem_append.mpr ⟨?_, List.forall_mem_map.mpr fun b _ => hupd b⟩
  decide

/-! ### Enough budget -/

/-- With budget for `n + 3` commands the computation is `TGEN` and a whole call on a valid table (R108). -/
theorem computation_succeeds {s : State} {bytes : List Byte} (hinv : s.Inv) (hf : s.fault = false)
    (hb : s.budgetFor (bytes.length + 3))
    (hin : s.inputs = presenting ([.tgen, .init] ++ bytes.map .upd ++ [.fin])) :
    ∃ s' rs, runSteps (bytes.length + 3) s = .next s' ∧ s'.fault = false ∧ rs.length = bytes.length + 2 ∧
      s'.responses = s.responses ++ (rs ++ [⟨0, crc32 bytes⟩]) := by
  let rest := presenting ([.init] ++ bytes.map .upd ++ [.fin])
  let u := completed .tgen (s.taken rest)
  have hready : s.ready := ready_of_budgetFor hf hb
  have hstep : step s = .next u := step_completes (i := .tgen) hin hready nofun nofun
  have hbu : u.budgetFor ((bytes.map Instr.upd).length + 2) := by
    rw [List.length_map]
    exact completed_budgetFor (s := s.taken rest) hb .tgen
  obtain ⟨s', rs, hrun, hrs, hlen, _, _, hf', _⟩ := callDeliversCrc32OfItsBytes u (bytes.map .upd) []
    ((hinv.taken rest).completed hready nofun) hf (callBody_map_upd bytes) hbu (List.append_nil _).symm
  rw [List.length_map] at hrun hlen
  rw [bytesOf_map_upd] at hrs
  refine ⟨s', ⟨0, 0⟩ :: rs, (runSteps_succ _ hstep).trans hrun, hf', congrArg (· + 1) hlen, ?_⟩
  rw [hrs, completed_responses]
  simp [responseData]

/-! ### Too small a budget -/

/-- Under the ceiling `N` the run of all the words the host presents ends with the budget run out: the commands that
still fit completed with data zero, and every word after them was answered `BudgetExceeded`. -/
def State.RunsOut (s : State) (N : Nat) : Prop :=
  ∃ s', runSteps s.inputs.length s = .next s' ∧ s'.fault = true ∧ s'.cause = Cause.budgetExceeded.code ∧ s'.ops = N ∧
    s'.responses = s.responses ++ (List.replicate (N - s.ops) ⟨0, 0⟩ ++
      List.replicate (s.inputs.length - (N - s.ops)) ⟨Cause.budgetExceeded.code, 0⟩)

section
variable {s : State} {N : Nat} (hf : s.fault = false) (hN : s.budget = some N)
include hf hN

/-- At the ceiling the first word presented raises `BudgetExceeded`, and the recorded fault answers the others. -/
theorem runsOut_at_ceiling {i : Instr} {cmds : List Instr} (hin : s.inputs = presenting (i :: cmds))
    (hops : s.ops = N) : s.RunsOut N := by
  let rest := presenting cmds
  let u := (s.taken rest).raise .budgetExceeded
  have hlen : s.inputs.length = rest.length + 1 := congrArg List.length hin
  have hb : budgetExhausted s = true := (budgetExhausted_iff s).mpr ⟨N, hN, hops.ge⟩
  have hstep : step s = .next u := step_budgetExceeded (cw := encode i) hf hb hin
  have hwords : ∀ m ∈ u.inputs.take rest.length, m ≠ .reset :=
    fun m hm => ne_reset_of_mem_presenting (List.mem_of_mem_take hm)
  have hrun := (runSteps_succ _ hstep).trans (faultedBlockOnlyAnswersItsCause rest.length u rfl hwords)
  rw [State.RunsOut, hlen]
  refine ⟨_, hrun, rfl, rfl, hops, ?_⟩
  simp [hops, u, List.replicate_succ]

/-- A command whose needs are met and whose data is zero either finds no budget, or completes and leaves the budget to
run out in the words after it. -/
theorem runsOut_cons {i : Instr} {cmds : List Instr} (hin : s.inputs = presenting (i :: cmds)) (hle : s.ops ≤ N)
    (ht : needsTable i = true → s.tv = true) (hc : needsCall i = true → s.co = true) (hdata : responseData i s = 0)
    (hrest : s.ops + 1 ≤ N → (completed i (s.taken (presenting cmds))).RunsOut N) : s.RunsOut N := by
  rcases hle.eq_or_lt with hops | hlt
  · exact runsOut_at_ceiling hf hN hin hops
  have hready : s.ready := by
    refine ready_of_budgetFor (n := 0) hf fun M hM => ?_
    cases hN.symm.trans hM
    exact hlt
  obtain ⟨s', hrun, hf', hcause, hops, hrs⟩ := hrest hlt
  simp only [completed_inputs, completed_ops, completed_responses, State.taken_inputs, State.taken_ops,
    State.taken_responses, responseData_taken, hdata] at hrun hrs
  have hlen : s.inputs.length = (presenting cmds).length + 1 := congrArg List.length hin
  have hdone : N - s.ops = N - (s.ops + 1) + 1 := by omega
  refine ⟨s', ?_, hf', hcause, hops, ?_⟩
  · rw [hlen]
    exact (runSteps_succ _ (step_completes hin hready ht hc)).trans hrun
  · rw [hrs, hlen, hdone, Nat.add_sub_add_right, List.replicate_succ, List.append_assoc]
    rfl

/-- In an open call on a valid table the budget runs out before `FIN`, if there is none left for `FIN`. -/
theorem runsOut_map_upd {bytes : List Byte} (htv : s.tv = true) (hco : s.co = true) (hle : s.ops ≤ N)
    (hlt : N ≤ s.ops + bytes.length) (hin : s.inputs = presenting (bytes.map .upd ++ [.fin])) : s.RunsOut N := by
  induction bytes generalizing s with
  | nil => exact runsOut_at_ceiling hf hN hin (Nat.le_antisymm hle hlt)
  | cons b bytes ih =>
    refine runsOut_cons hf hN hin hle (fun _ => htv) (fun _ => hco) rfl fun hle' => ?_
    refine ih hf hN htv hco hle' ?_ rfl
    rwa [completed_ops, State.taken_ops, Nat.add_assoc, Nat.add_comm 1]

end

/-! ### The obligation -/

/-- Settles O42, by whether the budget allows the computation's `n + 3` commands. -/
theorem budgetDecidesAFullComputation : Obligations.BudgetDecidesAFullComputation := by
  intro s bytes N hinv hf hN hops hin
  rcases Nat.lt_or_ge N (bytes.length + 3) with hlt | hge
  · have hlen : s.inputs.length = bytes.length + 3 := by simp [hin, presenting]
    have hout : s.RunsOut N := by
      refine runsOut_cons hf hN hin (hinv.withinBudget N hN) nofun nofun rfl fun hle => ?_
      refine runsOut_cons hf hN rfl hle nofun nofun rfl fun hle => ?_
      refine runsOut_map_upd hf hN rfl rfl hle ?_ rfl
      rw [completed_ops, State.taken_ops, completed_ops, State.taken_ops, hops]
      omega
    obtain ⟨s', hrun, hf', hcause, hops', hrs⟩ := hout
    rw [hlen, hops, Nat.sub_zero] at hrs
    exact ⟨s', _, hlen ▸ hrun, hrs, fun hge => absurd hlt hge.not_gt, fun _ => ⟨hf', hcause, hops', rfl⟩⟩
  · have hb : s.budgetFor (bytes.length + 3) := by
      intro M hM
      cases hN.symm.trans hM
      rwa [hops, Nat.zero_add]
    obtain ⟨s', rs, hrun, hf', hlen, hrs⟩ := computation_succeeds hinv hf hb hin
    have hlen' : rs.length = ([.tgen, .init] ++ bytes.map .upd : List Instr).length := by simp [hlen]
    have hout := runOutputs_concat_fin hlen' (isOutput_before_fin bytes) (crc32 bytes)
    exact ⟨s', _, hrun, hrs, fun _ => ⟨congrArg not hf', hout⟩, fun hlt => absurd hge hlt.not_ge⟩

end Sys2Proof.Machine
end

section
/-! Reset (spec/70_reset_and_hazards.md R140), and what no command word clears (spec/10_state.md R24, R26, R27). -/

namespace Sys2Proof.Machine

/-- No command that completes makes a valid table invalid (R24). -/
theorem completed_tv_of_tv {i : Instr} {s : State} (htv : s.tv = true) : (completed i s).tv = true := by
  cases i with
  | tgen => rfl
  | trd _ | init | upd _ | fin => exact htv

/-- Settles O27: the reset state has the values by definition, and what the host holds is kept. -/
theorem resetWorksInAnyState : Obligations.ResetWorksInAnyState :=
  fun _ _ hin => ⟨_, step_reset hin, rfl, rfl, rfl, rfl, rfl, rfl, rfl, rfl⟩

/-- Settles O24, by what presenting a word can do: a recorded fault stays as it is, only a word presented without one
records a cause, and only a command that completes counts. -/
theorem noCommandClearsFaultTableOrCount : Obligations.NoCommandClearsFaultTableOrCount := by
  intro s cw rest hp
  rcases presents_cases hp with ⟨hf, hstep⟩ | ⟨c, hf, _, hstep⟩ | ⟨i, hr, _, _, _, hstep⟩
  · exact ⟨_, hstep, fun _ => ⟨hf, rfl⟩, id, le_rfl, rfl, fun _ _ => rfl⟩
  · exact ⟨_, hstep, fun hf' => absurd hf' (by simp [hf]), id, le_rfl, rfl, nofun⟩
  · exact ⟨_, hstep, fun hf' => absurd hf' (by simp [hr.1]), completed_tv_of_tv (s := s.taken rest),
      by simp, by simp, fun _ _ => by simp⟩

end Sys2Proof.Machine
end

section
/-! The outcomes of the commands in the four `(TV, CO)` states (spec/70_reset_and_hazards.md R142). -/

namespace Sys2Proof.Machine

/-- In state (0, 1) the register holds `RINIT`, which the final complement takes to zero (R142). -/
theorem State.Inv.responseData_fin_of_freshCall {s : State} (h : s.Inv) (htv : s.tv = false) (hco : s.co = true) :
    responseData .fin s = 0 := by
  rw [responseData, h.freshCall htv hco]
  exact BitVec.xor_self

/-- Settles O21: the rows of the table in the order of the commands, each by the command's outcome in a ready state. -/
theorem outcomesInTheFourStates : Obligations.OutcomesInTheFourStates := by
  refine ⟨commonChecks, fun s hready => ⟨fun _ => ?tgen, fun i => ⟨?trd, ?trdNoTable⟩, ?init,
    fun b => ⟨?updNoTable, ?updNoCall, ?upd⟩, ?finNoCall, ?fin, ?finFresh⟩⟩
  case tgen => exact ⟨_, exec_tgen_ready hready, hready.1, rfl, rfl, fun _ => rfl⟩
  case trd => exact fun htv => exec_trd_ready hready htv i
  case trdNoTable => exact fun htv => ⟨_, exec_tableNotReady hready rfl htv, faultedFrom_raise _ _⟩
  case init => exact ⟨_, exec_init_ready hready, hready.1, rfl, rfl, rfl⟩
  case updNoTable => exact fun htv => ⟨_, exec_tableNotReady hready rfl htv, faultedFrom_raise _ _⟩
  case updNoCall => exact fun htv hco => exec_upd_noOpenCall hready htv hco b
  case upd =>
    exact fun hinv htv hco =>
      ⟨_, exec_upd_ready hready htv hco b, hready.1, htv, hco, updateWith_read (hinv.tableRight htv) s.r b⟩
  case finNoCall => exact exec_fin_noOpenCall hready
  case fin => exact fun hco => ⟨_, exec_fin_ready hready hco, hready.1, rfl, rfl, rfl⟩
  case finFresh =>
    intro hinv htv hco
    refine ⟨_, exec_fin_ready hready hco, ?_⟩
    rw [completed_responses, hinv.responseData_fin_of_freshCall htv hco]

end Sys2Proof.Machine
end

section
/-! Runs of command words (spec/70_reset_and_hazards.md R145): the status of each response says whether the block is
faulted after it, so the statuses of a run say how it ends. -/

namespace Sys2Proof.Machine

/-- A presented word gets one response; the block is not faulted afterwards exactly when it was not before and the
status is `OK`. -/
theorem presents_status {s : State} {cw : CmdWord} {rest : List HostMove} (hp : s.presents cw rest) :
    ∃ u res, step s = .next u ∧ u.responses = s.responses ++ [res] ∧ u.inputs = rest ∧
      (u.fault = false ↔ s.fault = false ∧ res.status = 0) := by
  rcases presents_cases hp with ⟨hf, hstep⟩ | ⟨c, _, _, hstep⟩ | ⟨i, hr, _, _, _, hstep⟩
  · exact ⟨_, ⟨s.cause, 0⟩, hstep, rfl, rfl, by simp [hf]⟩
  · exact ⟨_, ⟨c.code, 0⟩, hstep, rfl, rfl, nofun, fun hok => absurd hok.2 (code_ne_zero c)⟩
  · exact ⟨_, ⟨0, responseData i s⟩, hstep, by simp, by simp, by simp [hr.1]⟩

/-- A run of command words from any state, faulted or not, so that the induction goes on past the word that faults: one
response per word presented, and no fault at the end exactly when there was none at the start and every status is
`OK`. -/
theorem runSteps_status (n : Nat) {s : State} (hwords : ∀ m ∈ s.inputs.take n, m ≠ .reset) :
    ∃ s' rs, runSteps n s = .next s' ∧ s'.responses = s.responses ++ rs ∧ rs.length = (s.inputs.take n).length ∧
      (s'.fault = false ↔ s.fault = false ∧ ∀ res ∈ rs, res.status = 0) := by
  induction n generalizing s with
  | zero => exact ⟨s, [], rfl, by simp, by simp, by simp⟩
  | succ n ih =>
    rcases hin : s.inputs with _ | ⟨_ | cw, rest⟩
    · exact ⟨s, [], runSteps_idle _ hin, by simp, by simp, by simp⟩
    · exact absurd rfl (hwords .reset (by simp [hin]))
    · obtain ⟨u, res, hstep, hres, hrest, hstatus⟩ := presents_status hin
      have hwords' : ∀ m ∈ u.inputs.take n, m ≠ .reset := fun m hm => hwords m (by simp [hin, ← hrest, hm])
      obtain ⟨s', rs, hrun, hrs, hlen, hall⟩ := ih hwords'
      refine ⟨s', res :: rs, (runSteps_succ n hstep).trans hrun, ?_, ?_, ?_⟩
      · rw [hrs, hres, List.append_assoc, List.singleton_append]
      · rw [List.length_cons, hlen, hrest, List.take_succ_cons, List.length_cons]
      · rw [hall, hstatus, List.forall_mem_cons, and_assoc]

/-- Settles O41: the run starts without a fault. The invariant is not needed: a fault that is recorded at the end was
taken in the run, and the word that raised it was answered with a code that is not 0. -/
theorem runSucceedsExactlyWhenEveryStatusIsOk : Obligations.RunSucceedsExactlyWhenEveryStatusIsOk := by
  intro n s _ hf hwords
  obtain ⟨s', rs, hrun, hrs, hlen, hall⟩ := runSteps_status n hwords
  refine ⟨s', rs, hrun, hrs, hlen, ?_⟩
  rw [State.successful, Bool.not_eq_true', hall, and_iff_right hf]

end Sys2Proof.Machine
end
